-- ==== Sys2Proof/Word.lean ====
section
/-! DEFINITION. The two word types of the block: the byte of the buffer and the unit of the command and response
ports (spec/20_memory.md R50, spec/30_encoding.md R85). -/

namespace Sys2Proof

/-- One byte of `BUF`, one colour channel, one symbol byte (R50, R80, R82). -/
abbrev Byte := BitVec 8

/-- One whole unit of the command port or of the response port, 32 bits (R85, R92). -/
abbrev Word := BitVec 32

end Sys2Proof
end

