-- ==== Sys2Proof/Syntax.lean ====
section
/-! DEFINITION. The commands of the block as abstract terms: one constructor per row of spec/opcode_table.json
(spec/30_encoding.md R97). -/

namespace Sys2Proof

/-- A colour: "an ordered triple of 8-bit channel intensities (red, green, blue)" (spec/00_scope.md R10). -/
structure Colour where
  r : Byte
  g : Byte
  b : Byte
deriving DecidableEq, Repr

/-- The commands (R91). A command that R93 calls illegal is no term of this type: the decoder names it instead. -/
inductive Instr where
  /-- INIT: LED count `n`, latch bytes `l`, clock rate `f` in Hz (R86). -/
  | init (n : BitVec 16) (l : BitVec 8) (f : BitVec 32)
  /-- ENCODE: the colours `c_0 .. c_{M-1}` (R87). -/
  | encode (cs : List Colour)
  /-- TRANSMIT: no operand (R88). -/
  | transmit
deriving DecidableEq, Repr

end Sys2Proof
end

