-- ==== Sys2Proof/WellFormed.lean ====
section
/-! DEFINITION. The terms that have command words. Every operand but one fits its field by its type; the colour count
`M` of ENCODE is a 24-bit field (spec/30_encoding.md R87). -/

namespace Sys2Proof

/-- The number of colours an ENCODE header can count, `2^24` exclusive: `M` is `0..16777215` (R87). -/
abbrev colourCountBound : Nat := 2 ^ 24

/-- A command term that command words can carry. -/
def Instr.wellFormed : Instr → Bool
  | .init _ _ _ => true
  | .encode cs => decide (cs.length < colourCountBound)
  | .transmit => true

end Sys2Proof
end

