-- ==== Sys2Proof/Decode.lean ====
section
/-! DEFINITION. The decoder from the command port's words to command terms, total on every list of words, the encoder,
and the table's numbering of a command's bits (spec/30_encoding.md R85 to R91, R93, R96, R97). -/

namespace Sys2Proof

/-- Header bits 31:24 (R85). -/
def opcodeOf (h : Word) : Byte := h.extractLsb' 24 8

/-- Header bits 23:0 (R85): the count `M` of ENCODE (R87), the reserved field of TRANSMIT (R88). -/
def headerField (h : Word) : BitVec 24 := h.extractLsb' 0 24

/-- How many words the command has, told from its header alone (R89). -/
def commandLength (h : Word) : Nat :=
  if opcodeOf h = 0x01#8 then 2
  else if opcodeOf h = 0x02#8 then 1 + (headerField h).toNat
  else 1

/-- Why a complete command is illegal: the three forms of R93. -/
inductive Illegal where
  /-- The header's opcode is unassigned: 0x00, or 0x04 to 0xFF (R91). -/
  | unassignedOpcode (op : Byte)
  /-- A colour word of an ENCODE has a nonzero bit in 31:24 (R87). -/
  | colourReserved
  /-- A TRANSMIT header has a nonzero bit in 23:0 (R88). -/
  | transmitReserved (field : BitVec 24)
deriving DecidableEq, Repr

/-- What the words at the head of the port are. -/
inductive Decoded where
  /-- A complete legal command, and the words after it. -/
  | instr (i : Instr) (rest : List Word)
  /-- A complete illegal command, named, and the words after it (R93, R97). -/
  | illegal (why : Illegal) (rest : List Word)
  /-- Not all words of the command have arrived: no term yet (R89, R97). -/
  | incomplete
deriving DecidableEq, Repr

/-- The first `n` words and the words after them, where `n` words are there. -/
def splitWords (n : Nat) (ws : List Word) : Option (List Word × List Word) :=
  if n ≤ ws.length then some (ws.take n, ws.drop n) else none

/-- One colour word (R87, R90); none where its reserved bits 31:24 are not all zero. -/
def decodeColour (w : Word) : Option Colour :=
  if w.extractLsb' 24 8 = 0#8 then
    some { r := w.extractLsb' 16 8, g := w.extractLsb' 8 8, b := w.extractLsb' 0 8 }
  else none

/-- The colour words of one ENCODE; none where one of them is illegal (R93). -/
def decodeColours : List Word → Option (List Colour)
  | [] => some []
  | w :: ws =>
    match decodeColour w, decodeColours ws with
    | some c, some cs => some (c :: cs)
    | _, _ => none

/-- The command at the head of the port (R85 to R91, R93). -/
def decode : List Word → Decoded
  | [] => .incomplete
  | h :: ws =>
    if opcodeOf h = 0x01#8 then
      match ws with
      | [] => .incomplete
      | f :: rest => .instr (.init (h.extractLsb' 0 16) (h.extractLsb' 16 8) f) rest
    else if opcodeOf h = 0x02#8 then
      match splitWords (headerField h).toNat ws with
      | none => .incomplete
      | some (colourWords, rest) =>
        match decodeColours colourWords with
        | none => .illegal .colourReserved rest
        | some cs => .instr (.encode cs) rest
    else if opcodeOf h = 0x03#8 then
      if headerField h = 0#24 then .instr .transmit ws
      else .illegal (.transmitReserved (headerField h)) ws
    else .illegal (.unassignedOpcode (opcodeOf h)) ws

/-- The word of one colour, `00000000 rrrrrrrr gggggggg bbbbbbbb` (R87). -/
def encodeColour (c : Colour) : Word := 0x00#8 ++ c.r ++ c.g ++ c.b

/-- The words of a command (R86, R87, R88). -/
def encode : Instr → List Word
  | .init n l f => [0x01#8 ++ l ++ n, f]
  | .encode cs => (0x02#8 ++ BitVec.ofNat 24 cs.length) :: cs.map encodeColour
  | .transmit => [0x03#8 ++ 0#24]

/-- `k` words of the number `w`, the least significant bits first. -/
def wordsOfNat : Nat → Nat → List Word
  | 0, _ => []
  | k + 1, w => BitVec.ofNat 32 w :: wordsOfNat k (w / 2 ^ 32)

/-- The words of a command whose first `nbits` bits are those of `w` as spec/opcode_table.json numbers them, filled up
with zero words to the length the header gives (R89). -/
def tableWords (nbits w : Nat) : List Word :=
  match wordsOfNat ((nbits + 31) / 32) (w % 2 ^ nbits) with
  | [] => []
  | h :: ws => h :: (ws ++ List.replicate (commandLength h - 1 - ws.length) 0#32)

/-- The command the decoder reads from a row's bits; none where it reads none. -/
def decodeTableWord (nbits w : Nat) : Option Instr :=
  match decode (tableWords nbits w) with
  | .instr i _ => some i
  | .illegal _ _ => none
  | .incomplete => none

end Sys2Proof
end

