-- ==== Sys2Proof/Config.lean ====
section
/-! DEFINITION. The implementation parameters of spec/00_scope.md R6, as plain data, their default values, and the one
free value of the block (the transport's answer, spec/43_transmit.md R181). -/

namespace Sys2Proof

/-- `BYTES_PER_LED`, fixed at 12 (R6, R130). -/
abbrev bytesPerLed : Nat := 12

/-- `CELLS_PER_BYTE`, fixed at 8 (R6; spec/90_conflicts.md C1). -/
abbrev cellsPerByte : Nat := 8

/-- `CELLS_PER_BIT`, fixed at 4 (R6; spec/90_conflicts.md C1). -/
abbrev cellsPerBit : Nat := 4

/-- The bit-pair lookup table: exactly four symbol bytes, `LUT[0]` to `LUT[3]` (spec/10_state.md R29). -/
structure Lut where
  e0 : Byte
  e1 : Byte
  e2 : Byte
  e3 : Byte
deriving DecidableEq, Repr

/-- The parameters of R6. They are fixed when the block is built and no command writes them (R7, R29).
They stand in `State` because a step has no other argument (notes/assumptions/2.md). -/
structure Config where
  lut : Lut
  rateMinHz : Nat
  rateMaxHz : Nat
  bufCapacity : Nat
  symbolThresholdCells : Nat
deriving DecidableEq, Repr

/-- The default table of spec/40_bitpair_table.md R111. -/
def Lut.standard : Lut := { e0 := 0x88#8, e1 := 0x8C#8, e2 := 0xC8#8, e3 := 0xCC#8 }

/-- The defaults of R6. `BUF_CAPACITY` is OPEN in the spec (spec/92_eei_decisions.md D10).
DESIGN CHOICE (unsafe; notes/assumptions/3.md): 786930, the largest size any INIT can ask for (R132). -/
def Config.standard : Config :=
  { lut := Lut.standard
    rateMinHz := 2050000
    rateMaxHz := 4000000
    bufCapacity := 786930
    symbolThresholdCells := 2 }

/-- The transport's answer to a transmit request (R181). -/
inductive TxAnswer where
  | ok
  | fail
deriving DecidableEq, Repr, Inhabited

/-- FREE VALUE: what the transport answers to its `k`-th request when no answer stands ready in `State.txAnswers`
(R181, spec/93_implementation_defined.md I8). It has no body: nothing can be proved of it
(notes/assumptions/6.md). -/
opaque Config.freeTxAnswer : Nat → TxAnswer

end Sys2Proof
end

