-- ==== Sys2Proof/Machine/State.lean ====
section
/-! DEFINITION. The state of the block (spec/10_state.md R20 to R37), the inputs and outputs of its ports, its one fault
and the state after reset. -/

namespace Sys2Proof.Machine

/-- The values of `RESULT` (spec/60_exceptions.md R200). "Legal values: 0x00..0x05. No other value is ever written"
(R26): the type has no other. -/
inductive Result where
  | ok
  | notReady
  | allocFail
  | lenMismatch
  | xmitFail
  | badCommand
deriving DecidableEq, Repr

/-- `BUF` (R27, spec/20_memory.md R50): the addresses `0 .. len-1`, each holding one byte. `cells` lists the bytes that
are not 0x00, by strictly rising address. An unlisted address below `len` reads 0x00, since INIT zero-fills the
buffer (spec/41_encoder.md R135). An address at or above `len` does not exist (R52). -/
structure Memory where
  len : Nat
  cells : List Host.Cell
deriving DecidableEq, Repr

/-- A transmit request `Tx(bytes, len, rate)` (spec/43_transmit.md R180). -/
structure TxRequest where
  bytes : List Byte
  len : Nat
  rate : BitVec 32
deriving DecidableEq, Repr

/-- What a step puts out (R37). -/
inductive Output where
  /-- A response word on the response port (spec/30_encoding.md R92). -/
  | response (w : Word)
  /-- A warning event on the diagnostic output (spec/42_config_validation.md R172). -/
  | warn (f : BitVec 32)
  /-- A transmit request on the transport port (R180). -/
  | tx (req : TxRequest)
deriving DecidableEq, Repr

/-- The block. The first seven fields are the state tuple of R20. The other five are the model's own: the parameters,
the inputs and the outputs of R20 and R37, which the host's form of a step has no other place for
(notes/assumptions/1.md and 2.md). -/
structure State where
  /-- `READY` (R21). -/
  ready : Bool
  /-- `LED_COUNT`, `N` (R22). -/
  ledCount : BitVec 16
  /-- `LATCH_BYTES`, `L` (R23). -/
  latchBytes : BitVec 8
  /-- `RATE_HZ`, `F` (R24). -/
  rateHz : BitVec 32
  /-- `RATE_WARN` (R25). -/
  rateWarn : Bool
  /-- `RESULT` (R26). -/
  result : Result
  /-- `BUF` (R27). -/
  buf : Memory
  /-- The parameters of spec/00_scope.md R6. No step writes them. -/
  cfg : Config
  /-- Words the caller has put on the command port and the block has not taken yet, the oldest first (R85). -/
  cmdPort : List Word
  /-- Answers of the transport that stand ready, the next one first (R181). -/
  txAnswers : List TxAnswer
  /-- How many transmit requests the transport has answered: the argument of the free answer. -/
  txDraws : Nat
  /-- All outputs so far, the oldest first (R37). -/
  outputs : List Output
deriving DecidableEq, Repr

/-- Why the block stops. -/
inductive Fault where
  /-- `MemWrite` or `MemRead` at an address outside `0 .. len(BUF)-1` (R52, spec/93_implementation_defined.md I11).
  Raised by the buffer accesses of Ops.lean, so by ENCODE in a state that breaks the invariant of R34, which no run
  from reset reaches. Safe: the model stops and writes nothing. -/
  | bufferOutOfRange (addr : Nat)
deriving DecidableEq, Repr

/-- Why the model has no meaning for a command. -/
inductive Refusal where
  /-- A command of the table without a meaning. No arm of `exec` answers it: every command has its meaning. Safe. -/
  | notModelled (mnemonic : String)
deriving DecidableEq, Repr

/-- The state after reset (R36, spec/70_reset_and_hazards.md R230): `READY = 0`, `RATE_WARN = 0`, `RESULT = OK`, `BUF`
empty. R36 leaves `LED_COUNT`, `LATCH_BYTES` and `RATE_HZ` unspecified.
DESIGN CHOICE (unsafe; notes/assumptions/4.md): they start at 0. -/
def State.reset : State :=
  { ready := false
    ledCount := 0
    latchBytes := 0
    rateHz := 0
    rateWarn := false
    result := .ok
    buf := { len := 0, cells := [] }
    cfg := Config.standard
    cmdPort := []
    txAnswers := []
    txDraws := 0
    outputs := [] }

end Sys2Proof.Machine
end

