-- ==== Sys2Proof/Machine/Flags.lean ====
section
/-! DEFINITION. The result codes, the response word and the two status bits' rules (spec/60_exceptions.md R200;
spec/30_encoding.md R92; spec/42_config_validation.md R170). -/

namespace Sys2Proof.Machine

/-- The 8-bit code of a result (R200). -/
def Result.code : Result → Byte
  | .ok => 0#8
  | .notReady => 0x01#8
  | .allocFail => 0x02#8
  | .lenMismatch => 0x03#8
  | .xmitFail => 0x04#8
  | .badCommand => 0x05#8

/-- The response word: bits 7:0 the result, bit 8 `READY`, bit 9 `RATE_WARN`, bits 31:10 zero (R92). -/
def responseWord (r : Result) (ready rateWarn : Bool) : Word :=
  0#22 ++ BitVec.ofBool rateWarn ++ BitVec.ofBool ready ++ r.code

/-- `out` of RateCheck: the rate lies outside `[RATE_MIN_HZ, RATE_MAX_HZ]`, both ends inside (R170, R174). -/
def rateOutOfRange (c : Config) (f : BitVec 32) : Bool :=
  decide (f.toNat < c.rateMinHz ∨ c.rateMaxHz < f.toNat)

/-- The diagnostic events of RateCheck: one `Warn(f)` where `out` holds, and none elsewhere (R172). -/
def rateEvents (c : Config) (f : BitVec 32) : List Output := if rateOutOfRange c f then [.warn f] else []

end Sys2Proof.Machine
end

