-- ==== Sys2Proof/Machine/Operands.lean ====
section
/-! DEFINITION. The operand forms of ENCODE: packing a colour, its twelve bit-pair lanes, the table lookup, and the list
of the bytes ENCODE stores (spec/30_encoding.md R80, R81; spec/40_bitpair_table.md R110; spec/41_encoder.md R140 to
R144). -/

namespace Sys2Proof

/-- The packed colour value, `red<<16 | green<<8 | blue` (R80). -/
def Colour.packed (c : Colour) : BitVec 24 :=
  (c.r.setWidth 24 <<< 16) ||| (c.g.setWidth 24 <<< 8) ||| c.b.setWidth 24

/-- Lane `k` of a packed value, `(v >> 2k) & 0b11` (R81). -/
def lane (v : BitVec 24) (k : Nat) : BitVec 2 := ((v >>> (2 * k)) &&& 0b11#24).setWidth 2

/-- LOOKUP: `Sym(p) = LUT[p]` (R110). -/
def Lut.sym (t : Lut) (p : BitVec 2) : Byte :=
  if p = 0b00#2 then t.e0
  else if p = 0b01#2 then t.e1
  else if p = 0b10#2 then t.e2
  else t.e3

/-- The stores for one LED whose region starts at `cursor`: lane `k`, for `k = 0..11` in this order, goes to byte
`11 - k` of the region (R140, R141). -/
def ledStores (t : Lut) (cursor : Nat) (c : Colour) : List Host.Cell :=
  (List.range bytesPerLed).map fun k => (cursor + (11 - k), t.sym (lane c.packed k))

/-- The stores of the colour loop: one LED after the other, the cursor advanced by 12 each time (R140). -/
def colourStores (t : Lut) (cursor : Nat) : List Colour → List Host.Cell
  | [] => []
  | c :: cs => ledStores t cursor c ++ colourStores t (cursor + bytesPerLed) cs

/-- The stores that zero the trailing latch region, `l` bytes from `cursor` on (R144). -/
def latchStores (cursor l : Nat) : List Host.Cell := (List.range l).map fun j => (cursor + j, 0#8)

/-- All bytes ENCODE stores, in the order of R140: the cursor starts at `L`, just after the leading latch region
(spec/10_state.md R30), and the trailing latch starts where the colour loop leaves it, at `L + 12*N`. -/
def encodeStores (t : Lut) (l : Nat) (cs : List Colour) : List Host.Cell :=
  colourStores t l cs ++ latchStores (l + bytesPerLed * cs.length) l

/-- The twelve symbol bytes of a colour by the closed form of R142: byte `j` is `LUT[(v >> (22 - 2j)) & 0b11]`. -/
def symbolBytes (t : Lut) (c : Colour) : List Byte :=
  (List.range bytesPerLed).map fun j => t.sym (lane c.packed (11 - j))

/-- The whole buffer of a frame, `zeros(L) ++ Sym-bytes(c_0) ++ … ++ zeros(L)` (R146). -/
def frameBytes (t : Lut) (l : Nat) (cs : List Colour) : List Byte :=
  List.replicate l 0#8 ++ cs.flatMap (symbolBytes t) ++ List.replicate l 0#8

end Sys2Proof
end

