-- ==== Sys2Proof/Machine/Symbols.lean ====
section
/-! DEFINITION. What the table's entries mean and when a table, and so a configuration, is valid
(spec/40_bitpair_table.md R112 to R115; spec/92_eei_decisions.md "Open parameters"). No command uses these checks:
they decide which blocks can be built. -/

namespace Sys2Proof

/-- The length of the leading run of high cells of a 4-cell symbol, bit 3 first. R113 gives it for well-formed nibbles
only. DESIGN CHOICE (safe; notes/assumptions/17.md): the function is total, and every use of it first asks whether the
nibble is well formed. -/
def highRun (x : BitVec 4) : Nat :=
  if !x.getLsbD 3 then 0
  else if !x.getLsbD 2 then 1
  else if !x.getLsbD 1 then 2
  else if !x.getLsbD 0 then 3
  else 4

/-- A well-formed symbol nibble: it starts high, it ends low, and its high cells form one leading run (R113). -/
def wellFormedNibble (x : BitVec 4) : Bool :=
  x.getLsbD 3 && !x.getLsbD 0 && (!x.getLsbD 1 || x.getLsbD 2)

/-- The logical bit of a well-formed nibble (R114); none for a nibble that is not well formed, which R114 leaves
undefined. -/
def decodeNibble (threshold : Nat) (x : BitVec 4) : Option Bool :=
  if wellFormedNibble x then some (decide (threshold ≤ highRun x)) else none

/-- The bit pair of a symbol byte, the high nibble giving the more significant bit (R112, R114). -/
def decodeByte (threshold : Nat) (s : Byte) : Option (BitVec 2) :=
  match decodeNibble threshold (s.extractLsb' 4 4), decodeNibble threshold (s.extractLsb' 0 4) with
  | some hi, some lo => some (BitVec.ofBool hi ++ BitVec.ofBool lo)
  | _, _ => none

/-- The round-trip property: every entry decodes to its index (R115). -/
def Lut.valid (threshold : Nat) (t : Lut) : Bool :=
  decide (decodeByte threshold t.e0 = some 0b00#2) && decide (decodeByte threshold t.e1 = some 0b01#2) &&
    decide (decodeByte threshold t.e2 = some 0b10#2) && decide (decodeByte threshold t.e3 = some 0b11#2)

/-- What the parameters must satisfy: a valid table (R115), `RATE_MIN_HZ <= RATE_MAX_HZ`, and a threshold of 1 to 3
cells (spec/92_eei_decisions.md). -/
def Config.valid (c : Config) : Bool :=
  c.lut.valid c.symbolThresholdCells && decide (c.rateMinHz ≤ c.rateMaxHz) &&
    decide (1 ≤ c.symbolThresholdCells) && decide (c.symbolThresholdCells ≤ 3)

end Sys2Proof
end

