-- ==== Sys2Proof/Machine/Ops.lean ====
section
/-! DEFINITION. The named operations over the buffer, the registers and the ports: buffer accesses (spec/20_memory.md
R52), ending a command with a result and raising an error (spec/60_exceptions.md R202), INIT's register writes, the
transport handoff (spec/43_transmit.md R180), taking words off the command port, and building a block. -/

namespace Sys2Proof.Machine

/-- The byte listed for an address; 0x00 where none is listed (spec/41_encoder.md R135). -/
def lookupCell : List Host.Cell → Nat → Byte
  | [], _ => 0#8
  | (b, v) :: cs, a => if a = b then v else lookupCell cs a

/-- The list with the byte of one address replaced, in canonical form: rising addresses, no 0x00 listed. -/
def putCell : List Host.Cell → Nat → Byte → List Host.Cell
  | [], a, v => if v = 0#8 then [] else [(a, v)]
  | (b, w) :: cs, a, v =>
    if b < a then (b, w) :: putCell cs a v
    else if b = a then (if v = 0#8 then cs else (a, v) :: cs)
    else if v = 0#8 then (b, w) :: cs
    else (a, v) :: (b, w) :: cs

/-- Every listed address is at least `lo`, below `len` and above the one before it, and no listed byte is 0x00. -/
def cellsWf (lo len : Nat) : List Host.Cell → Bool
  | [] => true
  | (a, v) :: cs => decide (lo ≤ a) && decide (a < len) && decide (v ≠ 0#8) && cellsWf (a + 1) len cs

/-- The canonical form of a buffer: equal buffers are equal data. -/
def Memory.wf (m : Memory) : Bool := cellsWf 0 m.len m.cells

/-- `[]`, the empty buffer. -/
def Memory.empty : Memory := { len := 0, cells := [] }

/-- `zeros(k)` as a buffer (R135). -/
def Memory.zeros (k : Nat) : Memory := { len := k, cells := [] }

/-- `MemRead(a, 1)`: defined only for `0 <= a < len(BUF)`; a fault elsewhere (R52). -/
def Memory.read (m : Memory) (a : Nat) : Except Fault Byte :=
  if a < m.len then .ok (lookupCell m.cells a) else .error (.bufferOutOfRange a)

/-- `MemWrite(a, 1, v)`: defined only for `0 <= a < len(BUF)`; a fault elsewhere, never a silent write (R52). -/
def Memory.write (m : Memory) (a : Nat) (v : Byte) : Except Fault Memory :=
  if a < m.len then .ok { m with cells := putCell m.cells a v } else .error (.bufferOutOfRange a)

/-- The byte writes of a list, one after the other; the first fault ends it. -/
def Memory.storeAll : List Host.Cell → Memory → Except Fault Memory
  | [], m => .ok m
  | (a, v) :: ws, m =>
    match m.write a v with
    | .ok m' => Memory.storeAll ws m'
    | .error r => .error r

/-- The whole buffer as one byte sequence, `BUF[0]` first (R55, R180). -/
def Memory.bytes (m : Memory) : List Byte := (List.range m.len).map (lookupCell m.cells)

/-- `S(n, l) = 12*n + 2*l`, exact (R131, R132). -/
def bufferSize (n l : Nat) : Nat := bytesPerLed * n + 2 * l

/-- The end of every command: `RESULT <- r`, and one response word with the state after the command (R26, R92). -/
def State.complete (r : Result) (s : State) : State :=
  { s with result := r, outputs := s.outputs ++ [.response (responseWord r s.ready s.rateWarn)] }

/-- `raise r()`, the block's one way to take an error (R202): `RESULT <- r`, the response word, and no other change.
There is no handler, vector, saved state or mode change, and so no return from one (R209). -/
def State.raise (r : Result) (s : State) : State := s.complete r

/-- `LED_COUNT <- n; LATCH_BYTES <- l; RATE_HZ <- f` (R134). -/
def State.configure (n : BitVec 16) (l : BitVec 8) (f : BitVec 32) (s : State) : State :=
  { s with ledCount := n, latchBytes := l, rateHz := f }

/-- RateCheck: `RATE_WARN <- out`, and `Warn(f)` where `out` holds (R170 to R172). -/
def State.rateCheck (f : BitVec 32) (s : State) : State :=
  { s with
    rateWarn := rateOutOfRange s.cfg f
    outputs := s.outputs ++ rateEvents s.cfg f }

/-- `BUF <- zeros(k); READY <- 1` (R135). -/
def State.allocate (k : Nat) (s : State) : State := { s with buf := Memory.zeros k, ready := true }

/-- `BUF <- []; READY <- 0` (R136). -/
def State.discard (s : State) : State := { s with buf := Memory.empty, ready := false }

/-- The transport's answer to the next request: the one that stands ready, or else the free one (R181). -/
def State.nextAnswer (s : State) : TxAnswer :=
  match s.txAnswers with
  | a :: _ => a
  | [] => Config.freeTxAnswer s.txDraws

/-- `request Tx(bytes = BUF, len = len(BUF), rate = RATE_HZ)` (R180): the request goes out and its answer is used up. -/
def State.requestTx (s : State) : State :=
  { s with
    outputs := s.outputs ++ [.tx { bytes := s.buf.bytes, len := s.buf.len, rate := s.rateHz }]
    txAnswers := s.txAnswers.tail
    txDraws := s.txDraws + 1 }

/-- The result TRANSMIT makes of an answer (R180, R183). -/
def answerResult : TxAnswer → Result
  | .ok => .ok
  | .fail => .xmitFail

/-- The block has taken a command off its port; `rest` stays on it (R89). -/
def State.takeCommand (rest : List Word) (s : State) : State := { s with cmdPort := rest }

/-- What the command port holds: a command, an illegal command, or no complete command (R85, R89, R97). -/
def State.fetch (s : State) : Decoded := decode s.cmdPort

/-- A complete illegal command is refused: BAD_COMMAND, and nothing else changes (R93, R204). -/
def State.refuseIllegal (rest : List Word) (s : State) : State := (s.takeCommand rest).raise .badCommand

/-- The words stand at the head of the command port. -/
def State.placeCommand (ws : List Word) (s : State) : State := { s with cmdPort := ws ++ s.cmdPort }

/-- The caller puts words on the command port, after those already there (R64, R85). -/
def State.deliver (ws : List Word) (s : State) : State := { s with cmdPort := s.cmdPort ++ ws }

/-- A block built with the given parameters, at power-on (R36, R231); none where they are invalid: "an invalid LUT is
*refused* when the configuration is built" (R115). -/
def State.powerOn (c : Config) : Option State :=
  if c.valid then some { State.reset with cfg := c } else none

end Sys2Proof.Machine
end

