-- ==== Sys2Proof/Machine/Configure.lean ====
section
/-! DEFINITION. The meaning of INIT (spec/41_encoder.md R133 to R138). -/

namespace Sys2Proof.Machine

/-- INIT (R133): write the configuration, check the rate, then allocate a zeroed buffer, or fail with ALLOC_FAIL where
`S > BUF_CAPACITY` (R135, R136). Accepted whatever `READY` is (R137). -/
def execInit (n : BitVec 16) (l : BitVec 8) (f : BitVec 32) (s : State) : Host.Outcome State Fault Refusal :=
  let checked := (s.configure n l f).rateCheck f
  let size := bufferSize n.toNat l.toNat
  if s.cfg.bufCapacity < size then .next (checked.discard.raise .allocFail)
  else .next ((checked.allocate size).complete .ok)

end Sys2Proof.Machine
end

