-- ==== Sys2Proof/Machine/Encoder.lean ====
section
/-! DEFINITION. The meaning of ENCODE (spec/41_encoder.md R139 to R150). -/

namespace Sys2Proof.Machine

/-- ENCODE (R140). Its first check, of the colour words' reserved bits, is the decoder's (R97, R139); then come
NOT_READY and LEN_MISMATCH, before any write (R139, R210). `bufferOutOfRange` can only come up where the buffer's
length breaks R34 (R145). -/
def execEncode (cs : List Colour) (s : State) : Host.Outcome State Fault Refusal :=
  if s.ready = false then .next (s.raise .notReady)
  else if cs.length ≠ s.ledCount.toNat then .next (s.raise .lenMismatch)
  else
    match s.buf.storeAll (encodeStores s.cfg.lut s.latchBytes.toNat cs) with
    | .ok m => .next (State.complete .ok { s with buf := m })
    | .error r => .fault r

end Sys2Proof.Machine
end

