-- ==== Sys2Proof/Machine/Transmit.lean ====
section
/-! DEFINITION. The meaning of TRANSMIT (spec/43_transmit.md R180 to R187). -/

namespace Sys2Proof.Machine

/-- TRANSMIT (R180). Its first check, of the header's reserved bits, is the decoder's (R97); then comes NOT_READY, and
only then the request. Request and answer are one step (R182); the block never retries (R183). -/
def execTransmit (s : State) : Host.Outcome State Fault Refusal :=
  if s.ready = false then .next (s.raise .notReady)
  else
    match s.nextAnswer with
    | .ok => .next (s.requestTx.complete .ok)
    | .fail => .next (s.requestTx.raise .xmitFail)

end Sys2Proof.Machine
end

