-- ==== Sys2Proof/Machine/Dispatch.lean ====
section
/-! DEFINITION. One arm per command, each one direct call of its meaning (spec/30_encoding.md R91). -/

namespace Sys2Proof.Machine

def exec (i : Instr) (s : State) : Host.Outcome State Fault Refusal :=
  match i with
  | .init n l f => Sys2Proof.Machine.execInit n l f s
  | .encode cs => Sys2Proof.Machine.execEncode cs s
  | .transmit => Sys2Proof.Machine.execTransmit s

end Sys2Proof.Machine
end

