-- ==== Sys2Proof/Machine/Step.lean ====
section
/-! DEFINITION. One step of the block: one whole command (spec/20_memory.md R60). -/

namespace Sys2Proof.Machine

/-- One step. A complete command is taken off the port and has its whole effect (R60); an illegal one is refused with
BAD_COMMAND (R204). While no complete command stands on the port the block holds: nothing changes and nothing is put
out (R89). DESIGN CHOICE (safe; notes/assumptions/5.md): holding is a step to the same state. -/
def step (s : State) : Host.Outcome State Fault Refusal :=
  match s.fetch with
  | .instr i rest => exec i (s.takeCommand rest)
  | .illegal _ rest => .next (s.refuseIllegal rest)
  | .incomplete => .next s

/-- The state with the command of a table row's bits at the head of the command port, where `step` takes its next
command from. The block fetches nothing from a memory (R62, R67): its commands are given to it from outside. -/
def State.withFetchWord (s : State) (nbits w : Nat) : State := s.placeCommand (tableWords nbits w)

end Sys2Proof.Machine
end

