-- ==== Sys2Proof/Machine/Caller.lean ====
section
/-! DEFINITION. The caller's side of the command port: issuing a command, and the pseudo-command WRITE
(spec/30_encoding.md R95, spec/43_transmit.md R184). WRITE is no command of the block. -/

namespace Sys2Proof.Machine

/-- The caller puts one command's words on the port and the block takes a step. Where the port was empty, as the rule
that commands are serialised has it (spec/70_reset_and_hazards.md R236), the step is that command's. -/
def State.issue (i : Instr) (s : State) : Host.Outcome State Fault Refusal := step (s.deliver (encode i))

/-- `WRITE cs`: ENCODE, then TRANSMIT if and only if ENCODE's result is OK (R184). -/
def State.issueWrite (cs : List Colour) (s : State) : Host.Outcome State Fault Refusal :=
  match s.issue (.encode cs) with
  | .next t => if t.result = .ok then t.issue .transmit else .next t
  | .fault r => .fault r
  | .refused r => .refused r

end Sys2Proof.Machine
end

