-- ==== Sys2Proof/Machine/Wire.lean ====
section
/-! DEFINITION. What the bytes of a transmit request are on the wire, for a transport that keeps its duties
(spec/43_transmit.md R185): bit-cells in order, the logical LED bits they carry, and derived durations. The block
neither checks nor depends on this (R185); no command uses it. -/

namespace Sys2Proof

/-- The 8 bit-cells of a buffer byte, bit 7 first; true is a high cell (spec/20_memory.md R56). -/
def byteCells (b : Byte) : List Bool := (List.range cellsPerByte).map fun i => b.getLsbD (7 - i)

/-- The bit-cells of a byte sequence, in ascending index order (R55). -/
def wireCells (bytes : List Byte) : List Bool := bytes.flatMap byteCells

/-- The 4-cell symbol of four cells, the first cell its bit 3 (R56, R82). -/
def cellsNibble (c3 c2 c1 c0 : Bool) : BitVec 4 :=
  BitVec.ofBool c3 ++ BitVec.ofBool c2 ++ BitVec.ofBool c1 ++ BitVec.ofBool c0

/-- The logical bits that a sequence of cells carries, 4 cells a bit, by the threshold of R114; none where a group is no
well-formed symbol or is cut short. -/
def decodeCells (threshold : Nat) : List Bool → Option (List Bool)
  | [] => some []
  | c3 :: c2 :: c1 :: c0 :: rest =>
    match decodeNibble threshold (cellsNibble c3 c2 c1 c0), decodeCells threshold rest with
    | some b, some bs => some (b :: bs)
    | _, _ => none
  | _ => none

/-- The logical bits of a colour in wire order: `R[7] … R[0], G[7] … G[0], B[7] … B[0]` (R57). -/
def Colour.logicalBits (c : Colour) : List Bool := byteCells c.r ++ byteCells c.g ++ byteCells c.b

/-- How long `k` bit-cells last at a clock rate of `f` Hz, in seconds: `k/F` (spec/70_reset_and_hazards.md R241). The
spec gives no duration at 0 Hz (spec/93_implementation_defined.md I16): none there. -/
def cellsDuration (k : Nat) (f : BitVec 32) : Option Rat :=
  if f = 0#32 then none else some ((k : Rat) / (f.toNat : Rat))

/-- High and low time of a logical bit whose symbol is the nibble `x`: `h/F`, then `(4 - h)/F`, where `h` is its number
of high cells (R241). R241 speaks of the symbols of a valid table only, and each of those is well formed (R115).
DESIGN CHOICE (safe; notes/assumptions/17.md): no pulse for a nibble that is not well formed. -/
def nibblePulse (x : BitVec 4) (f : BitVec 32) : Option (Rat × Rat) :=
  if wellFormedNibble x then
    match cellsDuration (highRun x) f, cellsDuration (cellsPerBit - highRun x) f with
    | some hi, some lo => some (hi, lo)
    | _, _ => none
  else none

/-- One logical bit lasts `4/F` (R241). -/
def bitDuration (f : BitVec 32) : Option Rat := cellsDuration cellsPerBit f

/-- One latch region lasts `8L/F` (R240, R241). -/
def latchDuration (l : Nat) (f : BitVec 32) : Option Rat := cellsDuration (cellsPerByte * l) f

/-- One LED lasts `96/F` (R241). -/
def ledDuration (f : BitVec 32) : Option Rat := cellsDuration (cellsPerByte * bytesPerLed) f

/-- A whole frame lasts `8*(12N + 2L)/F` (R241). -/
def frameDuration (n l : Nat) (f : BitVec 32) : Option Rat :=
  cellsDuration (cellsPerByte * (bytesPerLed * n + 2 * l)) f

end Sys2Proof
end

