-- ==== Sys2Proof/Safety.lean ====
section
/-! DEFINITION. The terms claims use: the invariant of the block, what a frame is, and a run that does not stop
(spec/10_state.md R34; spec/70_reset_and_hazards.md R233). -/

namespace Sys2Proof.Machine

/-- An address in one of the two latch regions of the buffer layout of spec/20_memory.md R53. -/
def State.inLatch (s : State) (a : Nat) : Prop :=
  a < s.latchBytes.toNat ∨ s.latchBytes.toNat + 12 * s.ledCount.toNat ≤ a

/-- The invariant: the canonical form of the buffer, the buffer invariant of R34 with its zero latch regions (R233), and
the rate warning of R25. -/
structure BlockInv (s : State) : Prop where
  bufCanonical : s.buf.wf = true
  readyLength : s.ready = true → s.buf.len = 12 * s.ledCount.toNat + 2 * s.latchBytes.toNat
  notReadyEmpty : s.ready = false → s.buf.len = 0
  latchZero : s.ready = true → ∀ a, a < s.buf.len → s.inLatch a → s.buf.read a = .ok 0#8
  warnFollowsRate : s.ready = true →
    (s.rateWarn = true ↔ (s.rateHz.toNat < s.cfg.rateMinHz ∨ s.cfg.rateMaxHz < s.rateHz.toNat))

/-- The buffer holds what INIT left, all zeros, or exactly the frame of some sequence of `LED_COUNT` colours
(spec/41_encoder.md R135, R146). -/
def FrameImage (s : State) : Prop :=
  s.ready = true →
    s.buf.bytes = List.replicate (12 * s.ledCount.toNat + 2 * s.latchBytes.toNat) 0#8 ∨
      ∃ cs : List Colour, cs.length = s.ledCount.toNat ∧ s.buf.bytes = frameBytes s.cfg.lut s.latchBytes.toNat cs

/-- A safe step: it answers a next state, so it neither faults nor is refused. -/
def Safe (o : Host.Outcome State Fault Refusal) : Prop := ∃ t, o = .next t

/-- Two states that agree on everything but the three registers R36 leaves unspecified at reset. -/
def SameButUnspecified (s t : State) : Prop :=
  ∃ (n : BitVec 16) (l : BitVec 8) (f : BitVec 32), t = { s with ledCount := n, latchBytes := l, rateHz := f }

end Sys2Proof.Machine
end

