-- ==== Sys2Proof/Certificates/Slice0/Obligations.lean ====
section
/-! DEFINITION. The statements for the provers. Each docstring names the rules of spec/ it formalises; "model's choice"
marks a clause that rests on the assumption log. -/

open Sys2Proof Sys2Proof.Machine

/-! ### Encoding -/

/-- Words written out from R86 to R91 and spec/95_test_vectors.md 2.6 decode to what they stand for. -/
def Obligations.DecodeReadsTheSpecsWords : Prop :=
  decode [0x01030001#32, 0x002DC6C0#32] = .instr (.init 1#16 3#8 3000000#32) [] ∧
  decode [0x01FFFFFF#32, 0x003D0900#32] = .instr (.init 65535#16 255#8 4000000#32) [] ∧
  decode [0x02000001#32, 0x00FF0080#32] = .instr (.encode [⟨0xFF#8, 0x00#8, 0x80#8⟩]) [] ∧
  decode [0x02000000#32] = .instr (.encode []) [] ∧
  decode [0x03000000#32] = .instr .transmit [] ∧
  decode [0x02000001#32, 0x01FF0080#32] = .illegal .colourReserved [] ∧
  decode [0x03000001#32] = .illegal (.transmitReserved 1#24) [] ∧
  decode [0x00000000#32] = .illegal (.unassignedOpcode 0x00#8) [] ∧
  decode [0x04000000#32] = .illegal (.unassignedOpcode 0x04#8) [] ∧
  decode [0xFF123456#32] = .illegal (.unassignedOpcode 0xFF#8) [] ∧
  decode [0x02000002#32, 0x00000000#32] = .incomplete

/-- Decoding the words of a well-formed command gives the command back, whatever words follow (R86 to R90). -/
def Obligations.DecodeOfEncodeIsTheCommand : Prop :=
  ∀ (i : Instr) (rest : List Word), i.wellFormed = true → decode (encode i ++ rest) = .instr i rest

/-- Words that decode to a command are that command's words: no bit of a legal command is dropped (R86 to R90). -/
def Obligations.EncodeOfDecodeIsTheWords : Prop :=
  ∀ (ws rest : List Word) (i : Instr), decode ws = .instr i rest → i.wellFormed = true ∧ ws = encode i ++ rest

/-- R97: a complete command has exactly one term, which is illegal exactly when R93 says so; an incomplete one has none.
`ops` are the words after the header, as many as R89 gives the command. -/
def Obligations.DecodeIsTotalAndNamesIllegalCommands : Prop :=
  (∀ (h : Word) (ops rest : List Word), 1 + ops.length = commandLength h →
    ((((opcodeOf h ≠ 0x01#8 ∧ opcodeOf h ≠ 0x02#8 ∧ opcodeOf h ≠ 0x03#8) ∨
          (opcodeOf h = 0x03#8 ∧ h.extractLsb' 0 24 ≠ 0#24) ∨
          (opcodeOf h = 0x02#8 ∧ ∃ w ∈ ops, w.extractLsb' 24 8 ≠ 0#8)) →
        ∃ why, decode (h :: (ops ++ rest)) = .illegal why rest) ∧
      (¬ ((opcodeOf h ≠ 0x01#8 ∧ opcodeOf h ≠ 0x02#8 ∧ opcodeOf h ≠ 0x03#8) ∨
          (opcodeOf h = 0x03#8 ∧ h.extractLsb' 0 24 ≠ 0#24) ∨
          (opcodeOf h = 0x02#8 ∧ ∃ w ∈ ops, w.extractLsb' 24 8 ≠ 0#8)) →
        ∃ i, decode (h :: (ops ++ rest)) = .instr i rest))) ∧
  (∀ (h : Word) (ws : List Word), 1 + ws.length < commandLength h → decode (h :: ws) = .incomplete) ∧
  decode [] = .incomplete

/-! ### One step -/

/-- A step runs the decoded command, on the state whose port no longer holds its words. The port queue is the model's
choice (notes/assumptions/1.md). -/
def Obligations.StepRunsTheDecodedCommand : Prop :=
  ∀ (s : State) (i : Instr) (rest : List Word), decode s.cmdPort = .instr i rest →
    step s = exec i { s with cmdPort := rest }

/-- R93, R204: a complete illegal command sets `RESULT` to BAD_COMMAND and answers; nothing else changes, no warning and
no request go out, whatever `READY` is (R210), and the words after it stay in frame. -/
def Obligations.IllegalCommandChangesOnlyResult : Prop :=
  ∀ (s : State) (h : Word) (ops rest : List Word),
    s.cmdPort = h :: (ops ++ rest) → 1 + ops.length = commandLength h →
    ((opcodeOf h ≠ 0x01#8 ∧ opcodeOf h ≠ 0x02#8 ∧ opcodeOf h ≠ 0x03#8) ∨
      (opcodeOf h = 0x03#8 ∧ h.extractLsb' 0 24 ≠ 0#24) ∨
      (opcodeOf h = 0x02#8 ∧ ∃ w ∈ ops, w.extractLsb' 24 8 ≠ 0#8)) →
    step s = .next { s with
      cmdPort := rest
      result := .badCommand
      outputs := s.outputs ++ [.response (responseWord .badCommand s.ready s.rateWarn)] }

/-- R89: while the words of a command have not all arrived the block writes no state and answers nothing. That holding
is a step to the same state is the model's choice (notes/assumptions/5.md). -/
def Obligations.IncompleteCommandHolds : Prop :=
  ∀ (s : State), s.cmdPort = [] ∨ (∃ h ws, s.cmdPort = h :: ws ∧ 1 + ws.length < commandLength h) → step s = .next s

/-- R92: a command produces exactly one response word, last, with its fields as of the state after the command. -/
def Obligations.EveryCommandAnswersOneResponse : Prop :=
  ∀ (s t : State), decode s.cmdPort ≠ .incomplete → step s = .next t →
    ∃ (pre : List Output) (w : Word), t.outputs = s.outputs ++ pre ++ [.response w] ∧
      (∀ o ∈ pre, ∀ x, o ≠ .response x) ∧
      w.extractLsb' 0 8 = t.result.code ∧ w.getLsbD 8 = t.ready ∧ w.getLsbD 9 = t.rateWarn ∧
      w.extractLsb' 10 22 = 0#22

/-- R200: the result codes, each its own. -/
def Obligations.ResultCodesAreTheTable : Prop :=
  Result.code .ok = 0x00#8 ∧ Result.code .notReady = 0x01#8 ∧ Result.code .allocFail = 0x02#8 ∧
    Result.code .lenMismatch = 0x03#8 ∧ Result.code .xmitFail = 0x04#8 ∧ Result.code .badCommand = 0x05#8 ∧
    ∀ r : Result, (r.code).toNat ≤ 5

/-- R210: the first condition that holds, in the rule's order, decides the result of each command (R200 gives the
causes), and a TRANSMIT makes no request where one of its first two conditions holds. `ops` are the words after the
header. -/
def Obligations.ResultFollowsTheErrorPriority : Prop :=
  ∀ (s t : State) (h : Word) (ops rest : List Word),
    s.cmdPort = h :: (ops ++ rest) → 1 + ops.length = commandLength h → step s = .next t →
    (opcodeOf h = 0x01#8 → t.result =
      if s.cfg.bufCapacity < 12 * (h.extractLsb' 0 16).toNat + 2 * (h.extractLsb' 16 8).toNat then .allocFail
      else .ok) ∧
    (opcodeOf h = 0x02#8 → t.result =
      if ∃ w ∈ ops, w.extractLsb' 24 8 ≠ 0#8 then .badCommand
      else if s.ready = false then .notReady
      else if ops.length ≠ s.ledCount.toNat then .lenMismatch
      else .ok) ∧
    (opcodeOf h = 0x03#8 → t.result =
      if h.extractLsb' 0 24 ≠ 0#24 then .badCommand
      else if s.ready = false then .notReady
      else if s.nextAnswer = .fail then .xmitFail
      else .ok) ∧
    (opcodeOf h = 0x03#8 → (h.extractLsb' 0 24 ≠ 0#24 ∨ s.ready = false) →
      ∃ w, t.outputs = s.outputs ++ [.response w]) ∧
    (opcodeOf h ≠ 0x01#8 → opcodeOf h ≠ 0x02#8 → opcodeOf h ≠ 0x03#8 → t.result = .badCommand)

/-! ### INIT -/

/-- R135 (and R133, R134, R171, R172 for this case): where `12n + 2l <= BUF_CAPACITY`, INIT completes from every state
with a zeroed buffer of that size, `READY = 1` and OK. The whole next state is given, so what it leaves alone is too. -/
def Obligations.InitAllocatesAZeroedBuffer : Prop :=
  ∀ (s : State) (n : BitVec 16) (l : BitVec 8) (f : BitVec 32) (out : Bool),
    12 * n.toNat + 2 * l.toNat ≤ s.cfg.bufCapacity →
    (out = true ↔ (f.toNat < s.cfg.rateMinHz ∨ s.cfg.rateMaxHz < f.toNat)) →
    exec (.init n l f) s = .next { s with
      ready := true
      ledCount := n
      latchBytes := l
      rateHz := f
      rateWarn := out
      result := .ok
      buf := Memory.zeros (12 * n.toNat + 2 * l.toNat)
      outputs := s.outputs ++ (if out then [.warn f] else []) ++ [.response (responseWord .ok true out)] } ∧
    (Memory.zeros (12 * n.toNat + 2 * l.toNat)).bytes = List.replicate (12 * n.toNat + 2 * l.toNat) 0#8

/-- R136 (and R134, R171, R172 for this case): where `12n + 2l > BUF_CAPACITY`, INIT discards the buffer, leaves the
block not ready and answers ALLOC_FAIL; the configuration and `RATE_WARN` are still written. -/
def Obligations.InitFailsBeyondTheCapacity : Prop :=
  ∀ (s : State) (n : BitVec 16) (l : BitVec 8) (f : BitVec 32) (out : Bool),
    s.cfg.bufCapacity < 12 * n.toNat + 2 * l.toNat →
    (out = true ↔ (f.toNat < s.cfg.rateMinHz ∨ s.cfg.rateMaxHz < f.toNat)) →
    exec (.init n l f) s = .next { s with
      ready := false
      ledCount := n
      latchBytes := l
      rateHz := f
      rateWarn := out
      result := .allocFail
      buf := Memory.empty
      outputs := s.outputs ++ (if out then [.warn f] else []) ++ [.response (responseWord .allocFail false out)] } ∧
    Memory.empty.bytes = []

/-- R134, R138, R171: whether or not it succeeds, INIT writes the three configuration registers and `RATE_WARN`, and puts
out one response, at most one warning and no request. -/
def Obligations.InitAlwaysConfiguresAndChecksTheRate : Prop :=
  ∀ (s t : State) (n : BitVec 16) (l : BitVec 8) (f : BitVec 32), exec (.init n l f) s = .next t →
    t.ledCount = n ∧ t.latchBytes = l ∧ t.rateHz = f ∧
      (t.rateWarn = true ↔ (f.toNat < s.cfg.rateMinHz ∨ s.cfg.rateMaxHz < f.toNat)) ∧
      ∃ w, t.outputs = s.outputs ++ (if t.rateWarn then [.warn f] else []) ++ [.response w]

/-- R174: the boundary table of the rate check, at the default bounds. -/
def Obligations.RateWindowBoundaries : Prop :=
  rateOutOfRange Config.standard 0#32 = true ∧ rateOutOfRange Config.standard 1000000#32 = true ∧
  rateOutOfRange Config.standard 2049999#32 = true ∧ rateOutOfRange Config.standard 2050000#32 = false ∧
  rateOutOfRange Config.standard 3000000#32 = false ∧ rateOutOfRange Config.standard 4000000#32 = false ∧
  rateOutOfRange Config.standard 4000001#32 = true ∧ rateOutOfRange Config.standard 4294967295#32 = true

/-- The frame of INIT, success or not: the parameters, the port's other words and the transport's answers are untouched,
and every byte that exists afterwards reads zero, with no byte of the earlier buffer kept (R137). -/
def Obligations.InitFrame : Prop :=
  ∀ (s t : State) (n : BitVec 16) (l : BitVec 8) (f : BitVec 32), exec (.init n l f) s = .next t →
    t.cfg = s.cfg ∧ t.cmdPort = s.cmdPort ∧ t.txAnswers = s.txAnswers ∧ t.txDraws = s.txDraws ∧
      (t.result = .ok → t.buf.len = 12 * n.toNat + 2 * l.toNat) ∧
      (t.result ≠ .ok → t.buf.len = 0 ∧ t.result = .allocFail) ∧
      ∀ a, a < t.buf.len → t.buf.read a = .ok 0#8

/-! ### ENCODE -/

/-- R201: ENCODE and TRANSMIT on a block that is not ready answer NOT_READY and change nothing else, whatever the
operands (R210); the block is not ready at reset and after an INIT that failed. -/
def Obligations.NotReadyCommandsChangeOnlyResult : Prop :=
  (∀ (s : State) (i : Instr), s.ready = false → (i = .transmit ∨ ∃ cs, i = .encode cs) →
    exec i s = .next { s with
      result := .notReady
      outputs := s.outputs ++ [.response (responseWord .notReady false s.rateWarn)] }) ∧
  State.reset.ready = false ∧
  ∀ (s t : State) (n : BitVec 16) (l : BitVec 8) (f : BitVec 32),
    exec (.init n l f) s = .next t → t.result ≠ .ok → t.ready = false

/-- R205: an ENCODE of more or of fewer than `LED_COUNT` colours answers LEN_MISMATCH and writes nothing. -/
def Obligations.EncodeRefusesAnotherLength : Prop :=
  ∀ (s : State) (cs : List Colour), s.ready = true → cs.length ≠ s.ledCount.toNat →
    exec (.encode cs) s = .next { s with
      result := .lenMismatch
      outputs := s.outputs ++ [.response (responseWord .lenMismatch true s.rateWarn)] }

/-- R141 (and R140's result): an ENCODE of `LED_COUNT` colours on a ready block completes with OK, and lane `k` of the
packed value of LED `i` stands, through the table, at `L + 12*i + 11 - k`. -/
def Obligations.EncodeExpandsEveryLane : Prop :=
  ∀ (s : State) (cs : List Colour), BlockInv s → s.ready = true → cs.length = s.ledCount.toNat →
    ∃ t, exec (.encode cs) s = .next t ∧ t.result = .ok ∧
      ∀ (i k : Nat) (hi : i < cs.length), k < 12 →
        t.buf.read (s.latchBytes.toNat + 12 * i + 11 - k) =
          .ok (s.cfg.lut.sym ((cs[i].packed >>> (2 * k)).setWidth 2))

/-- R146: the buffer after a successful ENCODE is the latch zeros, the twelve symbol bytes of each colour by the closed
form of R142, and the latch zeros. The rest of the next state is given too. -/
def Obligations.EncodeMakesExactlyTheFrame : Prop :=
  ∀ (s : State) (cs : List Colour), BlockInv s → s.ready = true → cs.length = s.ledCount.toNat →
    ∃ m : Memory,
      exec (.encode cs) s = .next { s with
        result := .ok
        buf := m
        outputs := s.outputs ++ [.response (responseWord .ok true s.rateWarn)] } ∧
      m.wf = true ∧
      m.bytes =
        List.replicate s.latchBytes.toNat 0#8 ++
          (cs.flatMap fun c : Colour =>
            (List.range 12).map fun j => s.cfg.lut.sym ((c.packed >>> (22 - 2 * j)).setWidth 2)) ++
          List.replicate s.latchBytes.toNat 0#8

/-- The frame of ENCODE (R140 "State written", R148): all registers but `RESULT`, the parameters, the port and the
transport's answers are unchanged, one response and nothing else goes out, and every byte outside the stored addresses
reads as before; where ENCODE fails, every byte does. -/
def Obligations.EncodeFrame : Prop :=
  ∀ (s t : State) (cs : List Colour), exec (.encode cs) s = .next t →
    t.ready = s.ready ∧ t.ledCount = s.ledCount ∧ t.latchBytes = s.latchBytes ∧ t.rateHz = s.rateHz ∧
      t.rateWarn = s.rateWarn ∧ t.cfg = s.cfg ∧ t.cmdPort = s.cmdPort ∧ t.txAnswers = s.txAnswers ∧
      t.txDraws = s.txDraws ∧ (∃ w, t.outputs = s.outputs ++ [.response w]) ∧
      (t.result ≠ .ok → t.buf = s.buf) ∧
      ∀ a, a ∉ (encodeStores s.cfg.lut s.latchBytes.toNat cs).map Prod.fst → t.buf.read a = s.buf.read a

/-- R143: ENCODE never writes the leading latch region, and under the invariant its bytes are the zeros INIT wrote. -/
def Obligations.EncodeKeepsTheLeadingLatch : Prop :=
  ∀ (s t : State) (cs : List Colour), exec (.encode cs) s = .next t →
    ∀ a, a < s.latchBytes.toNat →
      t.buf.read a = s.buf.read a ∧ (BlockInv s → s.ready = true → t.buf.read a = .ok 0#8)

/-- R144: a successful ENCODE leaves zeros in the trailing latch region, whatever stood there; under the invariant that
changes no value. -/
def Obligations.EncodeZeroesTheTrailingLatch : Prop :=
  ∀ (s t : State) (cs : List Colour), s.buf.wf = true → exec (.encode cs) s = .next t → t.result = .ok →
    ∀ j, j < s.latchBytes.toNat →
      t.buf.read (s.latchBytes.toNat + 12 * s.ledCount.toNat + j) = .ok 0#8 ∧
        (BlockInv s → s.buf.read (s.latchBytes.toNat + 12 * s.ledCount.toNat + j) = .ok 0#8)

/-- R145: every address an admitted ENCODE stores to lies in `[L, 2L + 12N - 1]`, inside the buffer, and every address
of that range is stored to. -/
def Obligations.EncodeStoresExactlyItsRange : Prop :=
  ∀ (s : State) (cs : List Colour), BlockInv s → s.ready = true → cs.length = s.ledCount.toNat →
    ∀ a, a ∈ (encodeStores s.cfg.lut s.latchBytes.toNat cs).map Prod.fst ↔ s.latchBytes.toNat ≤ a ∧ a < s.buf.len

/-- R61, R146: the buffer after a successful ENCODE depends on `L`, `N`, the table and the colours alone, so two states
with different histories, and an ENCODE repeated, give the same buffer. -/
def Obligations.EncodeForgetsHistory : Prop :=
  ∀ (s s' t t' : State) (cs : List Colour), BlockInv s → BlockInv s' →
    s.cfg.lut = s'.cfg.lut → s.latchBytes = s'.latchBytes → s.ledCount = s'.ledCount →
    exec (.encode cs) s = .next t → exec (.encode cs) s' = .next t' → t.result = .ok → t'.result = .ok →
    t.buf = t'.buf ∧ ∀ u, exec (.encode cs) t = .next u → u.buf = t.buf

/-- R147: with no LEDs configured the empty ENCODE succeeds and leaves the buffer exactly as it was, all zero. -/
def Obligations.EncodeOfNoLedsKeepsTheBuffer : Prop :=
  ∀ (s : State), BlockInv s → s.ready = true → s.ledCount = 0#16 →
    exec (.encode []) s = .next { s with
      result := .ok
      outputs := s.outputs ++ [.response (responseWord .ok true s.rateWarn)] } ∧
    s.buf.bytes = List.replicate (2 * s.latchBytes.toNat) 0#8

/-- R116: under a valid table, whatever the other parameters, the encoding of a colour sequence is invertible. -/
def Obligations.EncodeIsInvertible : Prop :=
  ∀ (thr : Nat) (s s' t t' : State) (cs cs' : List Colour), BlockInv s → BlockInv s' →
    s.cfg.lut.valid thr = true → s.cfg.lut = s'.cfg.lut → s.latchBytes = s'.latchBytes →
    exec (.encode cs) s = .next t → exec (.encode cs') s' = .next t' → t.result = .ok → t'.result = .ok →
    t.buf.bytes = t'.buf.bytes → cs = cs'

/-! ### TRANSMIT -/

/-- R180: TRANSMIT refuses nonzero reserved bits before it looks at `READY`, then a block that is not ready; on a ready
block it completes, whatever is in the buffer: one request with the whole buffer, its length and `RATE_HZ`, then the
result of the transport's answer. Only `RESULT`, of the block's registers, changes. Where the answer comes from, and
that `txAnswers` loses it and `txDraws` counts it, is the model's choice (notes/assumptions/6.md). -/
def Obligations.TransmitHandsOverTheWholeBuffer : Prop :=
  (∀ (s : State) (h : Word) (rest : List Word), s.cmdPort = h :: rest → h.extractLsb' 24 8 = 0x03#8 →
    h.extractLsb' 0 24 ≠ 0#24 →
    step s = .next { s with
      cmdPort := rest
      result := .badCommand
      outputs := s.outputs ++ [.response (responseWord .badCommand s.ready s.rateWarn)] }) ∧
  (∀ s : State, s.ready = false →
    exec .transmit s = .next { s with
      result := .notReady
      outputs := s.outputs ++ [.response (responseWord .notReady false s.rateWarn)] }) ∧
  (∀ (s : State) (r : Result), s.ready = true →
    ((s.nextAnswer = .ok ∧ r = .ok) ∨ (s.nextAnswer = .fail ∧ r = .xmitFail)) →
    exec .transmit s = .next { s with
      result := r
      txAnswers := s.txAnswers.tail
      txDraws := s.txDraws + 1
      outputs := s.outputs ++
        [.tx { bytes := s.buf.bytes, len := s.buf.len, rate := s.rateHz }, .response (responseWord r true s.rateWarn)] })

/-- R181: a TRANSMIT on a ready block completes for both answers, and neither INIT nor ENCODE reads the transport's
answer: with other answers in store each does the same and leaves them alone. That answers stand in a queue is the
model's choice (notes/assumptions/6.md). -/
def Obligations.OnlyTransmitReadsTheAnswer : Prop :=
  (∀ (s : State) (a : TxAnswer) (as : List TxAnswer), s.ready = true → s.txAnswers = a :: as →
    ∃ t, exec .transmit s = .next t ∧ t.txAnswers = as ∧ (t.result = .ok ↔ a = .ok) ∧
      (t.result = .xmitFail ↔ a = .fail)) ∧
  (∀ (s t : State) (i : Instr) (as : List TxAnswer) (k : Nat), i ≠ .transmit → exec i s = .next t →
    exec i { s with txAnswers := as, txDraws := k } = .next { t with txAnswers := as, txDraws := k })

/-- R183, R206: where the transport answers fail, TRANSMIT answers XMIT_FAIL and changes nothing else: `READY` stays 1
and the buffer is unchanged, so a TRANSMIT issued again requests the same bytes, length and rate. -/
def Obligations.FailedTransmitKeepsTheFrame : Prop :=
  ∀ (s t : State), s.ready = true → s.nextAnswer = .fail → exec .transmit s = .next t →
    t.result = .xmitFail ∧ t.ready = true ∧ t.buf = s.buf ∧ t.ledCount = s.ledCount ∧ t.latchBytes = s.latchBytes ∧
      t.rateHz = s.rateHz ∧ t.rateWarn = s.rateWarn ∧ t.cfg = s.cfg ∧ t.cmdPort = s.cmdPort ∧
      (∃ w, t.outputs = s.outputs ++ [.tx ⟨s.buf.bytes, s.buf.len, s.rateHz⟩, .response w]) ∧
      ∃ u w, exec .transmit t = .next u ∧
        u.outputs = t.outputs ++ [.tx ⟨s.buf.bytes, s.buf.len, s.rateHz⟩, .response w]

/-- R187: two TRANSMITs with no command between them make two identical requests. -/
def Obligations.RepeatedTransmitRequestsTheSame : Prop :=
  ∀ (s : State), s.ready = true →
    ∃ t u req w w', exec .transmit s = .next t ∧ exec .transmit t = .next u ∧
      u.outputs = s.outputs ++ [.tx req, .response w, .tx req, .response w'] ∧
      req.bytes = s.buf.bytes ∧ req.len = s.buf.len ∧ req.rate = s.rateHz

/-- R137, R186, R238: a TRANSMIT after a successful INIT and before any ENCODE sends a frame of zeros at INIT's rate,
whatever frame stood in the buffer before. -/
def Obligations.TransmitAfterInitSendsZeros : Prop :=
  ∀ (s t : State) (n : BitVec 16) (l : BitVec 8) (f : BitVec 32), exec (.init n l f) s = .next t → t.result = .ok →
    ∃ u w, exec .transmit t = .next u ∧
      u.outputs = t.outputs ++
        [.tx ⟨List.replicate (12 * n.toNat + 2 * l.toNat) 0#8, 12 * n.toNat + 2 * l.toNat, f⟩, .response w]

/-! ### The whole block -/

/-- R36, R111, R230: the values the spec gives for reset. The values of the three registers R36 leaves unspecified, and
of `BUF_CAPACITY`, are the model's choice and not stated here. -/
def Obligations.ResetState : Prop :=
  State.reset.ready = false ∧ State.reset.rateWarn = false ∧ State.reset.result = .ok ∧
    State.reset.buf.bytes = [] ∧ State.reset.cfg.lut = ⟨0x88#8, 0x8C#8, 0xC8#8, 0xCC#8⟩

/-- The invariant holds at reset. -/
def Obligations.InvariantHoldsAtReset : Prop := BlockInv State.reset

/-- R34, R233, R25: every step keeps the invariant: the canonical buffer, its length, its zero latch regions, and the
warning bit that follows the rate. -/
def Obligations.EveryStepKeepsTheInvariant : Prop := ∀ s t : State, BlockInv s → step s = .next t → BlockInv t

/-- R146 and R135 as an invariant: the buffer of a ready block is at every time all zeros or exactly the frame of some
sequence of `LED_COUNT` colours: no step leaves a torn or mixed frame. -/
def Obligations.EveryStepKeepsAWholeFrame : Prop :=
  ∀ s t : State, BlockInv s → FrameImage s → step s = .next t → FrameImage t

/-- R52, R145: no step from a state that meets the invariant faults or is refused. -/
def Obligations.NoStepStops : Prop := ∀ s : State, BlockInv s → Safe (step s)

/-- R7, R29: no step writes the table or another parameter. -/
def Obligations.NoStepWritesTheParameters : Prop := ∀ s t : State, step s = .next t → t.cfg = s.cfg

/-- R21 to R25, R172, R175: only INIT writes `READY`, the configuration registers and `RATE_WARN`, and only INIT puts out
a warning. -/
def Obligations.OnlyInitConfiguresAndWarns : Prop :=
  ∀ s t : State, step s = .next t → (∀ n l f rest, decode s.cmdPort ≠ .instr (.init n l f) rest) →
    t.ready = s.ready ∧ t.ledCount = s.ledCount ∧ t.latchBytes = s.latchBytes ∧ t.rateHz = s.rateHz ∧
      t.rateWarn = s.rateWarn ∧ ∃ new, t.outputs = s.outputs ++ new ∧ ∀ o ∈ new, ∀ f, o ≠ .warn f

/-- R182, R33: only a TRANSMIT makes a transmit request, at most one, and then with the buffer as it stands. -/
def Obligations.OnlyTransmitMakesRequests : Prop :=
  ∀ s t : State, step s = .next t → ∃ new, t.outputs = s.outputs ++ new ∧
    ∀ req, Output.tx req ∈ new →
      (∃ rest, decode s.cmdPort = .instr .transmit rest) ∧ s.ready = true ∧
        req = ⟨s.buf.bytes, s.buf.len, s.rateHz⟩ ∧ ∃ w, new = [.tx req, .response w]

/-- R202, R203: a step that ends with an error other than ALLOC_FAIL changes no register but `RESULT` and no byte of the
buffer; ALLOC_FAIL leaves the block not ready, and then no command but a later INIT that fits makes it ready. -/
def Obligations.ErrorsArePrecise : Prop :=
  (∀ s t : State, step s = .next t → t.result ≠ .ok → t.result ≠ .allocFail →
    t.ready = s.ready ∧ t.ledCount = s.ledCount ∧ t.latchBytes = s.latchBytes ∧ t.rateHz = s.rateHz ∧
      t.rateWarn = s.rateWarn ∧ t.buf = s.buf ∧ t.cfg = s.cfg) ∧
  (∀ (s t : State) (i : Instr), exec i s = .next t → t.result = .allocFail → t.ready = false) ∧
  (∀ s t : State, step s = .next t → s.ready = false → t.ready = true →
    ∃ n l f rest, decode s.cmdPort = .instr (.init n l f) rest ∧ 12 * n.toNat + 2 * l.toNat ≤ s.cfg.bufCapacity)

/-- R36: while the block is not ready nothing depends on the three registers that reset leaves unspecified: two states
that differ only in them run every command to states that differ only in them, with the same outputs, and INIT
makes the states equal. -/
def Obligations.UnspecifiedRegistersAreUnobservable : Prop :=
  ∀ (s t : State) (i : Instr), s.ready = false → SameButUnspecified s t →
    ∃ s' t', exec i s = .next s' ∧ exec i t = .next t' ∧ SameButUnspecified s' t' ∧ s'.outputs = t'.outputs ∧
      ((∃ n l f, i = .init n l f) → s' = t')

/-! ### The table and the wire -/

/-- R113: the well-formed symbol nibbles are `0b1000`, `0b1100` and `0b1110`, with high runs of 1, 2 and 3 cells. -/
def Obligations.WellFormedSymbolNibbles : Prop :=
  (∀ x : BitVec 4, wellFormedNibble x = true ↔ x = 0b1000#4 ∨ x = 0b1100#4 ∨ x = 0b1110#4) ∧
    highRun 0b1000#4 = 1 ∧ highRun 0b1100#4 = 2 ∧ highRun 0b1110#4 = 3

/-- R115: a table is valid exactly when both nibbles of every entry are well formed and the entry decodes to its index; a
block is built with valid parameters and refused with others; the default table is valid. -/
def Obligations.OnlyValidTablesAreBuilt : Prop :=
  (∀ (thr : Nat) (t : Lut), t.valid thr = true ↔
    ∀ p : BitVec 2, wellFormedNibble ((t.sym p).extractLsb' 4 4) = true ∧
      wellFormedNibble ((t.sym p).extractLsb' 0 4) = true ∧ decodeByte thr (t.sym p) = some p) ∧
  (∀ c : Config, c.lut.valid c.symbolThresholdCells = false → State.powerOn c = none) ∧
  (∀ c : Config, c.valid = true → ∃ s, State.powerOn c = some s ∧ s.cfg = c ∧ BlockInv s) ∧
  Lut.standard.valid 2 = true ∧ State.powerOn Config.standard = some State.reset

/-- R116: the entries of a valid table are distinct. -/
def Obligations.ValidTableIsInjective : Prop :=
  ∀ (thr : Nat) (t : Lut), t.valid thr = true → ∀ p q : BitVec 2, t.sym p = t.sym q → p = q

/-- R80, R81: the packed value is red, green, blue from the top; its lanes are the channels' bit pairs: blue in lanes 3..0,
green in 7..4, red in 11..8. -/
def Obligations.PackedLanesAreTheChannelsPairs : Prop :=
  ∀ c : Colour, c.packed.extractLsb' 16 8 = c.r ∧ c.packed.extractLsb' 8 8 = c.g ∧ c.packed.extractLsb' 0 8 = c.b ∧
    ∀ k, k < 4 → lane c.packed k = c.b.extractLsb' (2 * k) 2 ∧ lane c.packed (4 + k) = c.g.extractLsb' (2 * k) 2 ∧
      lane c.packed (8 + k) = c.r.extractLsb' (2 * k) 2

/-- R57: clocked out in ascending order and MSB first, the colour region of a frame carries, under a valid table, the
logical bits `R[7..0], G[7..0], B[7..0]` of LED 0, LED 1, and so on, at 4 cells a bit and 96 cells an LED. That the
transport keeps this order is its duty (R185), not the block's (notes/assumptions/11.md, DEDUCED). -/
def Obligations.WireCarriesTheColoursBits : Prop :=
  ∀ (thr : Nat) (t : Lut) (cs : List Colour), t.valid thr = true →
    decodeCells thr (wireCells (cs.flatMap (symbolBytes t))) = some (cs.flatMap Colour.logicalBits) ∧
      (wireCells (cs.flatMap (symbolBytes t))).length = 96 * cs.length

/-! ### The buffer -/

/-- R64, R58: a byte read after a write is the byte written, every other byte is as before, the length stays, and the
canonical form is kept. -/
def Obligations.BufferReadsTheLatestWrite : Prop :=
  ∀ (m m' : Memory) (a : Nat) (v : Byte), m.wf = true → m.write a v = .ok m' →
    m'.wf = true ∧ m'.len = m.len ∧ m'.read a = .ok v ∧ ∀ b, b ≠ a → m'.read b = m.read b

/-- R52: a buffer access is defined for `0 .. len(BUF)-1`, and outside it is a fault, never a silent write; an ENCODE that
would need one faults; under the invariant no ENCODE does. -/
def Obligations.OutOfRangeAccessFaults : Prop :=
  (∀ (m : Memory) (a : Nat) (v : Byte), a < m.len → (∃ b, m.read a = .ok b) ∧ ∃ m', m.write a v = .ok m') ∧
  (∀ (m : Memory) (a : Nat) (v : Byte), m.len ≤ a →
    m.read a = .error (.bufferOutOfRange a) ∧ m.write a v = .error (.bufferOutOfRange a)) ∧
  (∀ (s : State) (cs : List Colour), s.ready = true → cs.length = s.ledCount.toNat →
    s.buf.len < 12 * s.ledCount.toNat + 2 * s.latchBytes.toNat →
    ∃ a, exec (.encode cs) s = .fault (.bufferOutOfRange a)) ∧
  (∀ (s : State) (cs : List Colour), BlockInv s → Safe (exec (.encode cs) s))

/-- Equal buffers are equal data: two buffers in canonical form with the same bytes are the same. The canonical form is
the model's choice (notes/assumptions/7.md). -/
def Obligations.CanonicalBuffersAreTheirBytes : Prop :=
  ∀ m m' : Memory, m.wf = true → m'.wf = true → m.bytes = m'.bytes → m = m'

/-! ### WRITE -/

/-- R184: `WRITE cs` on an idle port sends exactly the frame of `cs`: ENCODE's response, then one request with that frame,
then TRANSMIT's response, whose result is OK or XMIT_FAIL. That WRITE is two caller steps on an empty port is the
model's reading (notes/assumptions/16.md, DEDUCED). -/
def Obligations.WriteSendsExactlyTheFrame : Prop :=
  ∀ (s : State) (cs : List Colour), BlockInv s → s.ready = true → s.cmdPort = [] → cs.length = s.ledCount.toNat →
    ∃ t w w', s.issueWrite cs = .next t ∧ t.cmdPort = [] ∧
      t.outputs = s.outputs ++
        [.response w, .tx ⟨frameBytes s.cfg.lut s.latchBytes.toNat cs,
          12 * s.ledCount.toNat + 2 * s.latchBytes.toNat, s.rateHz⟩, .response w'] ∧
      (t.result = .ok ∨ t.result = .xmitFail)

/-- R184: where ENCODE fails, `WRITE cs` ends with ENCODE's error, makes no request and changes nothing else. -/
def Obligations.WriteStopsAtAFailedEncode : Prop :=
  ∀ (s : State) (cs : List Colour) (r : Result), cs.length < 2 ^ 24 → s.cmdPort = [] →
    ((s.ready = false ∧ r = .notReady) ∨ (s.ready = true ∧ cs.length ≠ s.ledCount.toNat ∧ r = .lenMismatch)) →
    s.issueWrite cs = .next { s with
      result := r
      outputs := s.outputs ++ [.response (responseWord r s.ready s.rateWarn)] }
end

