-- ==== Sys2Proof/Laws/Decode.lean ====
section
/-! SUPPORT. The fields of the words the encoder writes, and what the decoder makes of a command's words. -/

namespace Sys2Proof

/-- The bits of a word made of a byte and 24 bits. -/
theorem getLsbD_header (op : BitVec 8) (x : BitVec 24) (i : Nat) :
    BitVec.getLsbD (w := 32) (op ++ x) i = if i < 24 then x.getLsbD i else op.getLsbD (i - 24) :=
  BitVec.getLsbD_append

/-- The bits of an INIT header. -/
theorem getLsbD_initHeader (op : BitVec 8) (l : BitVec 8) (n : BitVec 16) (i : Nat) :
    BitVec.getLsbD (w := 32) (op ++ l ++ n) i =
      if i < 16 then n.getLsbD i else if i < 24 then l.getLsbD (i - 16) else op.getLsbD (i - 24) := by
  have h : BitVec.getLsbD (w := 32) (op ++ l ++ n) i =
      if i < 16 then n.getLsbD i else (op ++ l).getLsbD (i - 16) := BitVec.getLsbD_append
  rw [h, BitVec.getLsbD_append]
  by_cases h1 : i < 16
  · simp [h1]
  · by_cases h2 : i < 24
    · simp [h1, h2, show i - 16 < 8 by omega]
    · simp [h1, h2, show ¬ i - 16 < 8 by omega, show i - 16 - 8 = i - 24 by omega]

/-- The bits of a colour word. -/
theorem getLsbD_colourWord (top r g b : BitVec 8) (i : Nat) :
    BitVec.getLsbD (w := 32) (top ++ r ++ g ++ b) i =
      if i < 8 then b.getLsbD i else if i < 16 then g.getLsbD (i - 8)
      else if i < 24 then r.getLsbD (i - 16) else top.getLsbD (i - 24) := by
  have h : BitVec.getLsbD (w := 32) (top ++ r ++ g ++ b) i =
      if i < 8 then b.getLsbD i else (top ++ r ++ g).getLsbD (i - 8) := BitVec.getLsbD_append
  rw [h, BitVec.getLsbD_append, BitVec.getLsbD_append]
  by_cases h1 : i < 8
  · simp [h1]
  · by_cases h2 : i < 16
    · simp [h1, h2, show i - 8 < 8 by omega]
    · by_cases h3 : i < 24
      · simp [h1, h2, h3, show ¬ i - 8 < 8 by omega, show i - 8 - 8 = i - 16 by omega, show i - 16 < 8 by omega]
      · simp [h1, h2, h3, show ¬ i - 8 < 8 by omega, show ¬ i - 8 - 8 < 8 by omega,
          show i - 8 - 8 - 8 = i - 24 by omega]

/-- The fields of a word made of a byte and 24 bits (R85). -/
@[simp] theorem opcodeOf_header (op : BitVec 8) (x : BitVec 24) : opcodeOf (op ++ x) = op := by
  apply BitVec.eq_of_getLsbD_eq
  intro i hi
  rw [opcodeOf, BitVec.getLsbD_extractLsb', getLsbD_header]
  simp [hi]

@[simp] theorem headerField_header (op : BitVec 8) (x : BitVec 24) : headerField (op ++ x) = x := by
  apply BitVec.eq_of_getLsbD_eq
  intro i hi
  rw [headerField, BitVec.getLsbD_extractLsb', getLsbD_header]
  simp [hi]

/-- The fields of an INIT header (R86). -/
@[simp] theorem opcodeOf_initHeader (op l : BitVec 8) (n : BitVec 16) : opcodeOf (op ++ l ++ n) = op := by
  apply BitVec.eq_of_getLsbD_eq
  intro i hi
  rw [opcodeOf, BitVec.getLsbD_extractLsb', getLsbD_initHeader]
  simp [hi, show ¬ 24 + i < 16 by omega]

@[simp] theorem latchField_initHeader (op l : BitVec 8) (n : BitVec 16) :
    BitVec.extractLsb' (n := 32) 16 8 (op ++ l ++ n) = l := by
  apply BitVec.eq_of_getLsbD_eq
  intro i hi
  rw [BitVec.getLsbD_extractLsb', getLsbD_initHeader]
  simp [hi, show 16 + i < 24 by omega]

@[simp] theorem countField_initHeader (op l : BitVec 8) (n : BitVec 16) :
    BitVec.extractLsb' (n := 32) 0 16 (op ++ l ++ n) = n := by
  apply BitVec.eq_of_getLsbD_eq
  intro i hi
  rw [BitVec.getLsbD_extractLsb', getLsbD_initHeader]
  simp [hi]

/-- A header is its opcode and its field (R85). -/
theorem header_eq (h : Word) : h = opcodeOf h ++ headerField h := by
  apply BitVec.eq_of_getLsbD_eq
  intro i hi
  rw [getLsbD_header, opcodeOf, headerField, BitVec.getLsbD_extractLsb', BitVec.getLsbD_extractLsb']
  by_cases h' : i < 24
  · simp [h']
  · simp [h', show i - 24 < 8 by omega, show 24 + (i - 24) = i by omega]

/-- A word is its top byte and the two operand fields of INIT (R86). -/
theorem initHeader_eq (h : Word) : h = opcodeOf h ++ h.extractLsb' 16 8 ++ h.extractLsb' 0 16 := by
  apply BitVec.eq_of_getLsbD_eq
  intro i hi
  rw [getLsbD_initHeader, opcodeOf]
  simp only [BitVec.getLsbD_extractLsb']
  by_cases h1 : i < 16
  · simp [h1]
  · by_cases h2 : i < 24
    · simp [h1, h2, show i - 16 < 8 by omega, show 16 + (i - 16) = i by omega]
    · simp [h1, h2, show i - 24 < 8 by omega, show 24 + (i - 24) = i by omega]

/-- A colour word is read back (R87, R90). -/
@[simp] theorem decodeColour_encodeColour (c : Colour) : decodeColour (encodeColour c) = some c := by
  have htop : BitVec.extractLsb' (n := 32) 24 8 (0x00#8 ++ c.r ++ c.g ++ c.b) = 0#8 := by
    apply BitVec.eq_of_getLsbD_eq
    intro i hi
    rw [BitVec.getLsbD_extractLsb', getLsbD_colourWord]
    simp [show ¬ 24 + i < 8 by omega, show ¬ 24 + i < 16 by omega]
  have hr : BitVec.extractLsb' (n := 32) 16 8 (0x00#8 ++ c.r ++ c.g ++ c.b) = c.r := by
    apply BitVec.eq_of_getLsbD_eq
    intro i hi
    rw [BitVec.getLsbD_extractLsb', getLsbD_colourWord]
    simp [hi, show ¬ 16 + i < 8 by omega, show 16 + i < 24 by omega]
  have hg : BitVec.extractLsb' (n := 32) 8 8 (0x00#8 ++ c.r ++ c.g ++ c.b) = c.g := by
    apply BitVec.eq_of_getLsbD_eq
    intro i hi
    rw [BitVec.getLsbD_extractLsb', getLsbD_colourWord]
    simp [hi, show 8 + i < 16 by omega]
  have hb : BitVec.extractLsb' (n := 32) 0 8 (0x00#8 ++ c.r ++ c.g ++ c.b) = c.b := by
    apply BitVec.eq_of_getLsbD_eq
    intro i hi
    rw [BitVec.getLsbD_extractLsb', getLsbD_colourWord]
    simp [hi]
  simp only [decodeColour, encodeColour, htop, hr, hg, hb, if_true]

/-- A word that reads as a colour is that colour's word. -/
theorem encodeColour_decodeColour {w : Word} {c : Colour} (h : decodeColour w = some c) : w = encodeColour c := by
  unfold decodeColour at h
  split at h
  · rename_i htop
    simp only [Option.some.injEq] at h
    subst h
    apply BitVec.eq_of_getLsbD_eq
    intro i hi
    rw [encodeColour, getLsbD_colourWord, ← htop]
    simp only [BitVec.getLsbD_extractLsb']
    by_cases h1 : i < 8
    · simp [h1]
    · by_cases h2 : i < 16
      · simp [h1, h2, show i - 8 < 8 by omega, show 8 + (i - 8) = i by omega]
      · by_cases h3 : i < 24
        · simp [h1, h2, h3, show i - 16 < 8 by omega, show 16 + (i - 16) = i by omega]
        · simp [h1, h2, h3, show i - 24 < 8 by omega, show 24 + (i - 24) = i by omega]
  · simp at h

/-- A word reads as no colour exactly where its reserved bits are not all zero (R93). -/
theorem decodeColour_eq_none {w : Word} : decodeColour w = none ↔ w.extractLsb' 24 8 ≠ 0#8 := by
  by_cases h : w.extractLsb' 24 8 = 0#8 <;> simp [decodeColour, h]

@[simp] theorem decodeColours_map (cs : List Colour) : decodeColours (cs.map encodeColour) = some cs := by
  induction cs with
  | nil => rfl
  | cons c cs ih => simp [decodeColours, ih]

theorem map_of_decodeColours {ws : List Word} {cs : List Colour} (h : decodeColours ws = some cs) :
    ws = cs.map encodeColour := by
  induction ws generalizing cs with
  | nil =>
    simp only [decodeColours, Option.some.injEq] at h
    subst h; rfl
  | cons w ws ih =>
    simp only [decodeColours] at h
    split at h
    · rename_i c cs' hc hcs
      simp only [Option.some.injEq] at h
      subst h
      simp [encodeColour_decodeColour hc, ih hcs]
    · simp at h

/-- The colour words of an ENCODE are illegal exactly where one of them has a reserved bit set (R93). -/
theorem decodeColours_eq_none {ws : List Word} :
    decodeColours ws = none ↔ ∃ w ∈ ws, w.extractLsb' 24 8 ≠ 0#8 := by
  induction ws with
  | nil => simp [decodeColours]
  | cons w ws ih =>
    cases hw : decodeColour w with
    | none =>
      have := decodeColour_eq_none.mp hw
      simp [decodeColours, hw, this]
    | some c =>
      have hne : ¬ w.extractLsb' 24 8 ≠ 0#8 := by
        intro hcon
        rw [decodeColour_eq_none.mpr hcon] at hw
        cases hw
      cases hws : decodeColours ws with
      | none =>
        obtain ⟨x, hx, hx'⟩ := ih.mp hws
        simp only [decodeColours, hw, hws]
        simp only [true_iff]
        exact ⟨x, by simp [hx], hx'⟩
      | some cs =>
        simp only [decodeColours, hw, hws]
        constructor
        · intro h; cases h
        · rintro ⟨x, hx, hx'⟩
          rcases List.mem_cons.mp hx with rfl | hx
          · exact absurd hx' hne
          · rw [ih.mpr ⟨x, hx, hx'⟩] at hws
            cases hws

/-- Splitting off exactly the words that are there. -/
@[simp] theorem splitWords_append (ws rest : List Word) : splitWords ws.length (ws ++ rest) = some (ws, rest) := by
  simp [splitWords]

theorem splitWords_eq_some {n : Nat} {ws xs rest : List Word} (h : splitWords n ws = some (xs, rest)) :
    xs.length = n ∧ ws = xs ++ rest := by
  unfold splitWords at h
  split at h
  · simp only [Option.some.injEq, Prod.mk.injEq] at h
    obtain ⟨rfl, rfl⟩ := h
    exact ⟨by simpa using ‹n ≤ ws.length›, (List.take_append_drop n ws).symm⟩
  · simp at h

theorem splitWords_eq_none {n : Nat} {ws : List Word} : splitWords n ws = none ↔ ws.length < n := by
  unfold splitWords
  split <;> simp <;> omega

/-- What the decoder makes of a header with the INIT opcode. -/
theorem decode_init {h : Word} (hop : opcodeOf h = 0x01#8) (ws : List Word) :
    decode (h :: ws) =
      match ws with
      | [] => .incomplete
      | f :: rest => .instr (.init (h.extractLsb' 0 16) (h.extractLsb' 16 8) f) rest := by
  unfold decode
  dsimp only
  exact if_pos hop

/-- What the decoder makes of a header with the ENCODE opcode. -/
theorem decode_encode {h : Word} (hop : opcodeOf h = 0x02#8) (ws : List Word) :
    decode (h :: ws) =
      match splitWords (headerField h).toNat ws with
      | none => .incomplete
      | some (colourWords, rest) =>
        match decodeColours colourWords with
        | none => .illegal .colourReserved rest
        | some cs => .instr (.encode cs) rest := by
  unfold decode
  dsimp only
  exact (if_neg (by rw [hop]; decide)).trans (if_pos hop)

/-- What the decoder makes of a header with the TRANSMIT opcode. -/
theorem decode_transmit {h : Word} (hop : opcodeOf h = 0x03#8) (ws : List Word) :
    decode (h :: ws) =
      if headerField h = 0#24 then .instr .transmit ws else .illegal (.transmitReserved (headerField h)) ws := by
  unfold decode
  dsimp only
  rw [if_neg (by rw [hop]; decide), if_neg (by rw [hop]; decide), if_pos hop]

/-- What the decoder makes of an unassigned opcode (R91). -/
theorem decode_unassigned {h : Word} (h1 : opcodeOf h ≠ 0x01#8) (h2 : opcodeOf h ≠ 0x02#8) (h3 : opcodeOf h ≠ 0x03#8)
    (ws : List Word) : decode (h :: ws) = .illegal (.unassignedOpcode (opcodeOf h)) ws := by
  simp only [decode, h1, h2, h3, if_false]

end Sys2Proof
end

