-- ==== Sys2Proof/Laws/Memory.lean ====
section
/-! SUPPORT. What the buffer operations do: a read after a write, the canonical form kept, a list of stores. -/

namespace Sys2Proof.Machine

/-- Below the least listed address nothing is listed. -/
theorem lookupCell_of_lt {lo len : Nat} {cs : List Host.Cell} (h : cellsWf lo len cs = true) {a : Nat} (ha : a < lo) :
    lookupCell cs a = 0#8 := by
  induction cs generalizing lo with
  | nil => rfl
  | cons c cs ih =>
    obtain ⟨b, v⟩ := c
    simp only [cellsWf, Bool.and_eq_true, decide_eq_true_eq] at h
    have hne : a ≠ b := by omega
    simp only [lookupCell, hne, if_false]
    exact ih h.2 (by omega)

/-- A lower bound on the listed addresses can be lowered. -/
theorem cellsWf_mono {lo lo' len : Nat} {cs : List Host.Cell} (h : cellsWf lo len cs = true) (hle : lo' ≤ lo) :
    cellsWf lo' len cs = true := by
  cases cs with
  | nil => rfl
  | cons c cs =>
    obtain ⟨b, v⟩ := c
    simp only [cellsWf, Bool.and_eq_true, decide_eq_true_eq] at h ⊢
    exact ⟨⟨⟨by omega, h.1.1.2⟩, h.1.2⟩, h.2⟩

/-- A put keeps the canonical form. -/
theorem putCell_wf {lo len : Nat} {cs : List Host.Cell} (h : cellsWf lo len cs = true) {a : Nat} (v : Byte)
    (hlo : lo ≤ a) (hlen : a < len) : cellsWf lo len (putCell cs a v) = true := by
  induction cs generalizing lo with
  | nil =>
    by_cases hv : v = 0#8
    · simp [putCell, hv, cellsWf]
    · simp [putCell, hv, cellsWf, hlo, hlen]
  | cons c cs ih =>
    obtain ⟨b, w⟩ := c
    have h0 := h
    simp only [cellsWf, Bool.and_eq_true, decide_eq_true_eq] at h
    obtain ⟨⟨⟨hlb, hbl⟩, hw⟩, htail⟩ := h
    by_cases hba : b < a
    · simp only [putCell, hba, if_true, cellsWf, Bool.and_eq_true, decide_eq_true_eq]
      exact ⟨⟨⟨hlb, hbl⟩, hw⟩, ih htail (by omega)⟩
    · by_cases hEq : b = a
      · subst hEq
        by_cases hv : v = 0#8
        · simp only [putCell, hba, hv, if_true, if_false]
          exact cellsWf_mono htail (by omega)
        · simp only [putCell, hba, hv, if_true, if_false, cellsWf, Bool.and_eq_true, decide_eq_true_eq]
          exact ⟨⟨⟨hlo, hlen⟩, hv⟩, htail⟩
      · by_cases hv : v = 0#8
        · simp only [putCell, hba, hEq, hv, if_true, if_false]
          exact h0
        · simp only [putCell, hba, hEq, hv, if_false, cellsWf, Bool.and_eq_true, decide_eq_true_eq]
          exact ⟨⟨⟨hlo, hlen⟩, hv⟩, ⟨⟨by omega, hbl⟩, hw⟩, htail⟩

/-- A put leaves every other address as it was, in canonical form or not. -/
theorem lookupCell_putCell_ne (cs : List Host.Cell) {a b : Nat} (v : Byte) (hne : b ≠ a) :
    lookupCell (putCell cs a v) b = lookupCell cs b := by
  induction cs with
  | nil => by_cases hv : v = 0#8 <;> simp [putCell, hv, lookupCell, hne]
  | cons c cs ih =>
    obtain ⟨d, w⟩ := c
    by_cases hda : d < a
    · simp [putCell, hda, lookupCell, ih]
    · by_cases hEq : d = a
      · subst hEq
        by_cases hv : v = 0#8 <;> simp [putCell, hv, lookupCell, hne]
      · by_cases hv : v = 0#8 <;> simp [putCell, hda, hEq, hv, lookupCell, hne]

/-- A put in a list in canonical form is read back. -/
theorem lookupCell_putCell_self {lo len : Nat} {cs : List Host.Cell} (h : cellsWf lo len cs = true) (a : Nat)
    (v : Byte) : lookupCell (putCell cs a v) a = v := by
  induction cs generalizing lo with
  | nil => by_cases hv : v = 0#8 <;> simp [putCell, hv, lookupCell]
  | cons c cs ih =>
    obtain ⟨d, w⟩ := c
    have h0 := h
    simp only [cellsWf, Bool.and_eq_true, decide_eq_true_eq] at h
    by_cases hda : d < a
    · have hne : a ≠ d := by omega
      simp only [putCell, hda, if_true, lookupCell, hne, if_false]
      exact ih h.2
    · by_cases hEq : d = a
      · subst hEq
        by_cases hv : v = 0#8
        · simp only [putCell, hda, hv, if_true, if_false]
          exact lookupCell_of_lt h.2 (by omega)
        · simp [putCell, hv, lookupCell]
      · by_cases hv : v = 0#8
        · subst hv
          simp only [putCell, hda, hEq, if_true, if_false]
          exact lookupCell_of_lt (cellsWf_mono (lo' := d) (by
            simp only [cellsWf, Bool.and_eq_true, decide_eq_true_eq]
            exact ⟨⟨⟨le_refl _, h.1.1.2⟩, h.1.2⟩, h.2⟩) (le_refl _)) (by omega)
        · simp [putCell, hda, hEq, hv, lookupCell]

@[simp] theorem Memory.empty_wf : Memory.empty.wf = true := rfl

@[simp] theorem Memory.zeros_wf (k : Nat) : (Memory.zeros k).wf = true := rfl

@[simp] theorem Memory.zeros_len (k : Nat) : (Memory.zeros k).len = k := rfl

@[simp] theorem Memory.empty_len : Memory.empty.len = 0 := rfl

@[simp] theorem lookupCell_zeros (k a : Nat) : lookupCell (Memory.zeros k).cells a = 0#8 := rfl

@[simp] theorem Memory.bytes_length (m : Memory) : m.bytes.length = m.len := by simp [Memory.bytes]

@[simp] theorem Memory.bytes_getElem (m : Memory) (a : Nat) (h : a < m.bytes.length) :
    m.bytes[a] = lookupCell m.cells a := by simp [Memory.bytes]

@[simp] theorem Memory.zeros_bytes (k : Nat) : (Memory.zeros k).bytes = List.replicate k 0#8 := by
  apply List.ext_getElem <;> simp

theorem Memory.read_of_lt {m : Memory} {a : Nat} (h : a < m.len) : m.read a = .ok (lookupCell m.cells a) := by
  simp [Memory.read, h]

theorem Memory.read_eq_ok {m : Memory} {a : Nat} {v : Byte} :
    m.read a = .ok v ↔ a < m.len ∧ lookupCell m.cells a = v := by
  by_cases h : a < m.len <;> simp [Memory.read, h]

/-- Everything a byte write can do. -/
theorem Memory.write_cases (m : Memory) (a : Nat) (v : Byte) :
    (a < m.len ∧ m.write a v = .ok { m with cells := putCell m.cells a v }) ∨
      (m.len ≤ a ∧ m.write a v = .error (.bufferOutOfRange a)) := by
  by_cases h : a < m.len
  · exact .inl ⟨h, by simp [Memory.write, h]⟩
  · exact .inr ⟨by omega, by simp [Memory.write, h]⟩

theorem Memory.write_eq_ok {m m' : Memory} {a : Nat} {v : Byte} :
    m.write a v = .ok m' ↔ a < m.len ∧ m' = { m with cells := putCell m.cells a v } := by
  by_cases h : a < m.len <;> simp [Memory.write, h, eq_comm]

/-- A list of stores writes where all its addresses are in range, and then it is the puts one after the other. -/
theorem Memory.storeAll_of_lt (ws : List Host.Cell) (m : Memory) (h : ∀ w ∈ ws, w.1 < m.len) :
    m.storeAll ws = .ok { m with cells := ws.foldl (fun cs w => putCell cs w.1 w.2) m.cells } := by
  induction ws generalizing m with
  | nil => rfl
  | cons w ws ih =>
    obtain ⟨a, v⟩ := w
    have ha : a < m.len := h (a, v) (by simp)
    have hrest := ih { m with cells := putCell m.cells a v } (fun w hw => h w (by simp [hw]))
    simp only [Memory.storeAll, Memory.write, ha, if_true]
    rw [hrest]
    rfl

/-- A list of stores that writes had all its addresses in range. -/
theorem Memory.lt_of_storeAll {ws : List Host.Cell} {m m' : Memory} (h : m.storeAll ws = .ok m') :
    ∀ w ∈ ws, w.1 < m.len := by
  induction ws generalizing m with
  | nil => simp
  | cons w ws ih =>
    obtain ⟨a, v⟩ := w
    rcases m.write_cases a v with ⟨ha, hw⟩ | ⟨_, hw⟩
    · simp only [Memory.storeAll, hw] at h
      intro x hx
      rcases List.mem_cons.mp hx with rfl | hx
      · exact ha
      · exact ih h x hx
    · simp [Memory.storeAll, hw] at h

/-- Everything a list of stores can do: all addresses in range and the puts, or a fault. -/
theorem Memory.storeAll_cases (ws : List Host.Cell) (m : Memory) :
    ((∀ w ∈ ws, w.1 < m.len) ∧
        m.storeAll ws = .ok { m with cells := ws.foldl (fun cs w => putCell cs w.1 w.2) m.cells }) ∨
      (∃ w ∈ ws, m.len ≤ w.1 ∧ m.storeAll ws = .error (.bufferOutOfRange w.1)) := by
  induction ws generalizing m with
  | nil => exact .inl ⟨by simp, rfl⟩
  | cons w ws ih =>
    obtain ⟨a, v⟩ := w
    rcases m.write_cases a v with ⟨ha, hw⟩ | ⟨_, hw⟩
    · rcases ih { m with cells := putCell m.cells a v } with ⟨hall, he⟩ | ⟨x, hx, hle, he⟩
      · refine .inl ⟨?_, ?_⟩
        · intro x hx
          rcases List.mem_cons.mp hx with rfl | hx
          · exact ha
          · exact hall x hx
        · simp only [Memory.storeAll, hw]
          rw [he]
          rfl
      · exact .inr ⟨x, by simp [hx], hle, by simp only [Memory.storeAll, hw]; exact he⟩
    · exact .inr ⟨(a, v), by simp, ‹_›, by simp [Memory.storeAll, hw]⟩

theorem foldl_putCell_wf {lo len : Nat} (ws : List Host.Cell) {cs : List Host.Cell} (h : cellsWf lo len cs = true)
    (hws : ∀ w ∈ ws, lo ≤ w.1 ∧ w.1 < len) :
    cellsWf lo len (ws.foldl (fun cs w => putCell cs w.1 w.2) cs) = true := by
  induction ws generalizing cs with
  | nil => exact h
  | cons w ws ih =>
    exact ih (putCell_wf h w.2 (hws w (by simp)).1 (hws w (by simp)).2) (fun x hx => hws x (by simp [hx]))

/-- Stores leave an address that none of them names as it was. -/
theorem lookupCell_foldl_of_notMem (ws : List Host.Cell) (cs : List Host.Cell) {a : Nat}
    (h : ∀ w ∈ ws, w.1 ≠ a) :
    lookupCell (ws.foldl (fun cs w => putCell cs w.1 w.2) cs) a = lookupCell cs a := by
  induction ws generalizing cs with
  | nil => rfl
  | cons w ws ih =>
    rw [List.foldl_cons, ih _ (fun x hx => h x (by simp [hx])),
      lookupCell_putCell_ne _ _ (Ne.symm (h w (by simp)))]

/-- Where the stores that name an address all store the same byte there, that byte is read back. -/
theorem lookupCell_foldl_of_mem (ws : List Host.Cell) {lo len : Nat} {cs : List Host.Cell}
    (h : cellsWf lo len cs = true) (hws : ∀ w ∈ ws, lo ≤ w.1 ∧ w.1 < len) {a : Nat} {v : Byte}
    (hmem : (a, v) ∈ ws) (huniq : ∀ w ∈ ws, w.1 = a → w.2 = v) :
    lookupCell (ws.foldl (fun cs w => putCell cs w.1 w.2) cs) a = v := by
  induction ws generalizing cs with
  | nil => simp at hmem
  | cons w ws ih =>
    have hw := hws w (by simp)
    have hcs : cellsWf lo len (putCell cs w.1 w.2) = true := putCell_wf h w.2 hw.1 hw.2
    rw [List.foldl_cons]
    by_cases hin : (a, v) ∈ ws
    · exact ih hcs (fun x hx => hws x (by simp [hx])) hin (fun x hx => huniq x (by simp [hx]))
    · have hwv : w = (a, v) := by
        rcases List.mem_cons.mp hmem with rfl | h'
        · rfl
        · exact absurd h' hin
      subst hwv
      have hno : ∀ x ∈ ws, x.1 ≠ a := by
        intro x hx hxa
        have hxv : x.2 = v := huniq x (by simp [hx]) hxa
        exact hin (by rw [← hxa, ← hxv]; exact hx)
      rw [lookupCell_foldl_of_notMem ws _ hno]
      exact lookupCell_putCell_self h a v

/-- At and above the length nothing is listed. -/
theorem lookupCell_of_ge {lo len : Nat} {cs : List Host.Cell} (h : cellsWf lo len cs = true) {a : Nat}
    (ha : len ≤ a) : lookupCell cs a = 0#8 := by
  induction cs generalizing lo with
  | nil => rfl
  | cons c cs ih =>
    obtain ⟨b, v⟩ := c
    simp only [cellsWf, Bool.and_eq_true, decide_eq_true_eq] at h
    simp only [lookupCell, show a ≠ b by omega, if_false]
    exact ih h.2

/-- Two lists in canonical form that give every address the same byte are the same list. -/
theorem cells_ext {lo len : Nat} {cs ds : List Host.Cell} (h : cellsWf lo len cs = true)
    (h' : cellsWf lo len ds = true) (he : ∀ a, lookupCell cs a = lookupCell ds a) : cs = ds := by
  induction cs generalizing lo ds with
  | nil =>
    cases ds with
    | nil => rfl
    | cons d ds =>
      obtain ⟨b, w⟩ := d
      have hb := he b
      simp only [cellsWf, Bool.and_eq_true, decide_eq_true_eq] at h'
      simp only [lookupCell, if_true] at hb
      exact absurd hb.symm h'.1.2
  | cons c cs ih =>
    obtain ⟨a, v⟩ := c
    simp only [cellsWf, Bool.and_eq_true, decide_eq_true_eq] at h
    cases ds with
    | nil =>
      have ha := he a
      simp only [lookupCell, if_true] at ha
      exact absurd ha h.1.2
    | cons d ds =>
      obtain ⟨b, w⟩ := d
      simp only [cellsWf, Bool.and_eq_true, decide_eq_true_eq] at h'
      have hab : a = b := by
        rcases Nat.lt_trichotomy a b with hlt | heq | hgt
        · have ha := he a
          simp only [lookupCell, if_true, show a ≠ b by omega, if_false] at ha
          rw [lookupCell_of_lt h'.2 (by omega)] at ha
          exact absurd ha h.1.2
        · exact heq
        · have hb := he b
          simp only [lookupCell, if_true, show b ≠ a by omega, if_false] at hb
          rw [lookupCell_of_lt h.2 (by omega)] at hb
          exact absurd hb.symm h'.1.2
      subst hab
      have hv := he a
      simp only [lookupCell, if_true] at hv
      subst hv
      congr 1
      refine ih h.2 h'.2 (fun x => ?_)
      by_cases hx : x = a
      · subst hx
        rw [lookupCell_of_lt h.2 (by omega), lookupCell_of_lt h'.2 (by omega)]
      · have hxx := he x
        simpa [lookupCell, hx] using hxx

/-- The empty buffer is the only canonical one of length 0. -/
theorem Memory.eq_empty_of_len {m : Memory} (hwf : m.wf = true) (hlen : m.len = 0) : m = Memory.empty := by
  obtain ⟨len, cells⟩ := m
  simp only at hlen
  subst hlen
  cases cells with
  | nil => rfl
  | cons c cs =>
    obtain ⟨a, v⟩ := c
    simp [Memory.wf, cellsWf] at hwf

end Sys2Proof.Machine
end

