-- ==== Sys2Proof/Laws/Encoder.lean ====
section
/-! SUPPORT. Which bytes ENCODE stores, and the frame those stores make. -/

namespace Sys2Proof

theorem mem_ledStores {t : Lut} {cursor : Nat} {c : Colour} {w : Host.Cell} :
    w ∈ ledStores t cursor c ↔ ∃ j, j < 12 ∧ w = (cursor + j, t.sym (lane c.packed (11 - j))) := by
  simp only [ledStores, bytesPerLed, List.mem_map, List.mem_range]
  constructor
  · rintro ⟨k, hk, rfl⟩
    exact ⟨11 - k, by omega, by rw [show 11 - (11 - k) = k by omega]⟩
  · rintro ⟨j, hj, rfl⟩
    exact ⟨11 - j, by omega, by rw [show 11 - (11 - j) = j by omega]⟩

theorem mem_colourStores {t : Lut} {cursor : Nat} {cs : List Colour} {w : Host.Cell} :
    w ∈ colourStores t cursor cs ↔
      ∃ i, ∃ hi : i < cs.length, ∃ j, j < 12 ∧
        w = (cursor + 12 * i + j, t.sym (lane cs[i].packed (11 - j))) := by
  induction cs generalizing cursor with
  | nil => simp [colourStores]
  | cons c cs ih =>
    simp only [colourStores, bytesPerLed, List.mem_append, mem_ledStores, ih]
    constructor
    · rintro (⟨j, hj, rfl⟩ | ⟨i, hi, j, hj, rfl⟩)
      · exact ⟨0, by simp, j, hj, by simp⟩
      · exact ⟨i + 1, by simpa using hi, j, hj, by simp; omega⟩
    · rintro ⟨i, hi, j, hj, rfl⟩
      cases i with
      | zero => exact .inl ⟨j, hj, by simp⟩
      | succ i => exact .inr ⟨i, by simpa using hi, j, hj, by simp; omega⟩

theorem mem_latchStores {cursor l : Nat} {w : Host.Cell} :
    w ∈ latchStores cursor l ↔ ∃ j, j < l ∧ w = (cursor + j, 0#8) := by
  simp only [latchStores, List.mem_map, List.mem_range]
  exact ⟨fun ⟨j, hj, h⟩ => ⟨j, hj, h.symm⟩, fun ⟨j, hj, h⟩ => ⟨j, hj, h.symm⟩⟩

theorem mem_encodeStores {t : Lut} {l : Nat} {cs : List Colour} {w : Host.Cell} :
    w ∈ encodeStores t l cs ↔
      (∃ i, ∃ hi : i < cs.length, ∃ j, j < 12 ∧ w = (l + 12 * i + j, t.sym (lane cs[i].packed (11 - j)))) ∨
        (∃ j, j < l ∧ w = (l + 12 * cs.length + j, 0#8)) := by
  simp [encodeStores, mem_colourStores, mem_latchStores]

/-- No two stores of one ENCODE give one address two values. -/
theorem encodeStores_functional {t : Lut} {l : Nat} {cs : List Colour} {a : Nat} {v v' : Byte}
    (h : (a, v) ∈ encodeStores t l cs) (h' : (a, v') ∈ encodeStores t l cs) : v = v' := by
  rcases mem_encodeStores.mp h with ⟨i, hi, j, hj, he⟩ | ⟨j, hj, he⟩ <;>
    rcases mem_encodeStores.mp h' with ⟨i', hi', j', hj', he'⟩ | ⟨j', hj', he'⟩ <;>
    simp only [Prod.mk.injEq] at he he'
  · have hii : i = i' := by omega
    subst hii
    have hjj : j = j' := by omega
    subst hjj
    rw [he.2, he'.2]
  · omega
  · omega
  · rw [he.2, he'.2]

/-- Where ENCODE stores (R145). -/
theorem encodeStores_range {t : Lut} {l : Nat} {cs : List Colour} {w : Host.Cell} (h : w ∈ encodeStores t l cs) :
    l ≤ w.1 ∧ w.1 < 2 * l + 12 * cs.length := by
  rcases mem_encodeStores.mp h with ⟨i, hi, j, hj, rfl⟩ | ⟨j, hj, rfl⟩ <;> simp only <;> omega

@[simp] theorem symbolBytes_length (t : Lut) (c : Colour) : (symbolBytes t c).length = 12 := by simp [symbolBytes]

@[simp] theorem symbolBytes_getElem (t : Lut) (c : Colour) (j : Nat) (h : j < (symbolBytes t c).length) :
    (symbolBytes t c)[j] = t.sym (lane c.packed (11 - j)) := by simp [symbolBytes]

@[simp] theorem flatMap_symbolBytes_length (t : Lut) (cs : List Colour) :
    (cs.flatMap (symbolBytes t)).length = 12 * cs.length := by
  induction cs with
  | nil => rfl
  | cons c cs ih => simp [ih]; omega

theorem flatMap_symbolBytes_getElem (t : Lut) (cs : List Colour) (i j : Nat) (hi : i < cs.length) (hj : j < 12)
    (h : 12 * i + j < (cs.flatMap (symbolBytes t)).length) :
    (cs.flatMap (symbolBytes t))[12 * i + j] = t.sym (lane cs[i].packed (11 - j)) := by
  induction cs generalizing i with
  | nil => simp at hi
  | cons c cs ih =>
    cases i with
    | zero => simp [hj]
    | succ i =>
      have hi' : i < cs.length := by simpa using hi
      have hlt : 12 * i + j < (cs.flatMap (symbolBytes t)).length := by simp; omega
      have := ih i hi' hlt
      simp only [List.flatMap_cons, List.getElem_append, symbolBytes_length]
      rw [dif_neg (by omega)]
      simp only [show 12 * (i + 1) + j - 12 = 12 * i + j by omega, this]
      simp

@[simp] theorem frameBytes_length (t : Lut) (l : Nat) (cs : List Colour) :
    (frameBytes t l cs).length = 12 * cs.length + 2 * l := by
  simp [frameBytes]; omega

/-- A byte of the colour region of a frame (R142, R146). -/
theorem frameBytes_colour (t : Lut) (l : Nat) (cs : List Colour) (i j : Nat) (hi : i < cs.length) (hj : j < 12)
    (h : l + 12 * i + j < (frameBytes t l cs).length) :
    (frameBytes t l cs)[l + 12 * i + j] = t.sym (lane cs[i].packed (11 - j)) := by
  have hlt : 12 * i + j < (cs.flatMap (symbolBytes t)).length := by simp; omega
  simp only [frameBytes, List.append_assoc]
  rw [List.getElem_append_right (by simp; omega), List.getElem_append_left (by simp; omega)]
  simp only [List.length_replicate, show l + 12 * i + j - l = 12 * i + j by omega]
  exact flatMap_symbolBytes_getElem t cs i j hi hj hlt

/-- A byte of a latch region of a frame (R146). -/
theorem frameBytes_latch (t : Lut) (l : Nat) (cs : List Colour) (a : Nat) (ha : a < l ∨ l + 12 * cs.length ≤ a)
    (h : a < (frameBytes t l cs).length) : (frameBytes t l cs)[a] = 0#8 := by
  simp only [frameBytes, List.append_assoc]
  rcases ha with ha | ha
  · rw [List.getElem_append_left (by simpa using ha)]
    simp
  · rw [List.getElem_append_right (by simp; omega), List.getElem_append_right (by simp; omega)]
    simp

/-- A lane is two bits of the packed value, `v[2k+1 : 2k]` (R81). -/
theorem lane_eq_shift (v : BitVec 24) (k : Nat) : lane v k = (v >>> (2 * k)).setWidth 2 := by
  unfold lane
  apply BitVec.eq_of_getLsbD_eq
  intro i hi
  have h3 : (3#24).getLsbD i = true := by
    have : i = 0 ∨ i = 1 := by omega
    rcases this with rfl | rfl <;> decide
  simp only [BitVec.getLsbD_setWidth, BitVec.getLsbD_and, h3, Bool.and_true]

theorem lane_getLsbD (v : BitVec 24) (k i : Nat) (hi : i < 2) : (lane v k).getLsbD i = v.getLsbD (2 * k + i) := by
  rw [lane_eq_shift]
  simp [hi]

/-- The bits of a packed colour (R80). -/
theorem packed_getLsbD (c : Colour) (i : Nat) :
    c.packed.getLsbD i =
      if i < 8 then c.b.getLsbD i else if i < 16 then c.g.getLsbD (i - 8)
      else if i < 24 then c.r.getLsbD (i - 16) else false := by
  unfold Colour.packed
  simp only [BitVec.getLsbD_or, BitVec.getLsbD_shiftLeft, BitVec.getLsbD_setWidth]
  by_cases h1 : i < 8
  · simp [h1, show i < 16 by omega, show i < 24 by omega]
  · have hb := BitVec.getLsbD_of_ge c.b i (by omega)
    by_cases h2 : i < 16
    · simp [h1, h2, hb, show i < 24 by omega, show i - 8 < 24 by omega]
    · have hg := BitVec.getLsbD_of_ge c.g (i - 8) (by omega)
      by_cases h3 : i < 24
      · simp [h1, h2, h3, hb, hg, show i - 16 < 24 by omega]
      · simp [h1, h2, h3]

/-- The addresses ENCODE stores to are the colour region and the trailing latch region, without a gap. -/
theorem encodeStores_addresses {t : Lut} {l : Nat} {cs : List Colour} {a : Nat} (h1 : l ≤ a)
    (h2 : a < 2 * l + 12 * cs.length) : ∃ v, (a, v) ∈ encodeStores t l cs := by
  by_cases h : l + 12 * cs.length ≤ a
  · exact ⟨0#8, mem_encodeStores.mpr (.inr ⟨a - (l + 12 * cs.length), by omega, by simp; omega⟩)⟩
  · refine ⟨t.sym (lane (cs[(a - l) / 12]'(by omega)).packed (11 - (a - l) % 12)), mem_encodeStores.mpr (.inl
      ⟨(a - l) / 12, by omega, (a - l) % 12, by omega, ?_⟩)⟩
    simp only [Prod.mk.injEq, and_true]
    omega

/-- Every address of a frame is in a latch region or is byte `j` of the region of an LED `i` (R53, R54). -/
theorem frame_address_cases (l n a : Nat) :
    (a < l ∨ l + 12 * n ≤ a) ∨ ∃ i j, i < n ∧ j < 12 ∧ a = l + 12 * i + j := by
  by_cases h : a < l ∨ l + 12 * n ≤ a
  · exact .inl h
  · exact .inr ⟨(a - l) / 12, (a - l) % 12, by omega, by omega, by omega⟩

end Sys2Proof

namespace Sys2Proof.Machine

/-- The buffer after the stores of an ENCODE that is in range. -/
def encodedBuffer (t : Lut) (l : Nat) (cs : List Colour) (m : Memory) : Memory :=
  { m with cells := (encodeStores t l cs).foldl (fun cs w => putCell cs w.1 w.2) m.cells }

@[simp] theorem encodedBuffer_len (t : Lut) (l : Nat) (cs : List Colour) (m : Memory) :
    (encodedBuffer t l cs m).len = m.len := rfl

theorem encodedBuffer_wf {t : Lut} {l : Nat} {cs : List Colour} {m : Memory} (hwf : m.wf = true)
    (hlen : m.len = 12 * cs.length + 2 * l) : (encodedBuffer t l cs m).wf = true :=
  foldl_putCell_wf _ hwf (fun w hw => ⟨Nat.zero_le _, by have := encodeStores_range hw; simp only [encodedBuffer_len]; omega⟩)

/-- A byte of the colour region after ENCODE's stores (R141). -/
theorem encodedBuffer_colour {t : Lut} {l : Nat} {cs : List Colour} {m : Memory} (hwf : m.wf = true)
    (hlen : m.len = 12 * cs.length + 2 * l) {i j : Nat} (hi : i < cs.length) (hj : j < 12) :
    lookupCell (encodedBuffer t l cs m).cells (l + 12 * i + j) = t.sym (lane cs[i].packed (11 - j)) := by
  have hmem : (l + 12 * i + j, t.sym (lane cs[i].packed (11 - j))) ∈ encodeStores t l cs :=
    mem_encodeStores.mpr (.inl ⟨i, hi, j, hj, rfl⟩)
  refine lookupCell_foldl_of_mem _ hwf (fun w hw => ⟨Nat.zero_le _, ?_⟩) hmem ?_
  · have := encodeStores_range hw; omega
  · rintro ⟨a, v⟩ hw rfl
    exact encodeStores_functional hw hmem

/-- A byte of the trailing latch region after ENCODE's stores (R144). -/
theorem encodedBuffer_trailing {t : Lut} {l : Nat} {cs : List Colour} {m : Memory} (hwf : m.wf = true)
    (hlen : m.len = 12 * cs.length + 2 * l) {j : Nat} (hj : j < l) :
    lookupCell (encodedBuffer t l cs m).cells (l + 12 * cs.length + j) = 0#8 := by
  have hmem : (l + 12 * cs.length + j, 0#8) ∈ encodeStores t l cs := mem_encodeStores.mpr (.inr ⟨j, hj, rfl⟩)
  refine lookupCell_foldl_of_mem _ hwf (fun w hw => ⟨Nat.zero_le _, ?_⟩) hmem ?_
  · have := encodeStores_range hw; omega
  · rintro ⟨a, v⟩ hw rfl
    exact encodeStores_functional hw hmem

/-- An address that ENCODE does not store to keeps its byte. -/
theorem encodedBuffer_other (t : Lut) (l : Nat) (cs : List Colour) (m : Memory) {a : Nat}
    (h : ∀ w ∈ encodeStores t l cs, w.1 ≠ a) :
    lookupCell (encodedBuffer t l cs m).cells a = lookupCell m.cells a :=
  lookupCell_foldl_of_notMem _ _ h

/-- The stores of an ENCODE on a buffer of the right length write. -/
theorem storeAll_encodeStores {t : Lut} {l : Nat} {cs : List Colour} {m : Memory}
    (hlen : m.len = 12 * cs.length + 2 * l) :
    m.storeAll (encodeStores t l cs) = .ok (encodedBuffer t l cs m) :=
  Memory.storeAll_of_lt _ _ (fun w hw => by have := encodeStores_range hw; omega)

end Sys2Proof.Machine
end

