-- ==== Sys2Proof/Laws/State.lean ====
section
/-! SUPPORT. For every named update of the state, what each field of the state is after it: one lemma per field, true by
rfl, so that no later proof unfolds a record update. -/

namespace Sys2Proof.Machine

variable (s : State)

@[simp] theorem State.complete_ready (r : Result) : (s.complete r).ready = s.ready := rfl
@[simp] theorem State.complete_ledCount (r : Result) : (s.complete r).ledCount = s.ledCount := rfl
@[simp] theorem State.complete_latchBytes (r : Result) : (s.complete r).latchBytes = s.latchBytes := rfl
@[simp] theorem State.complete_rateHz (r : Result) : (s.complete r).rateHz = s.rateHz := rfl
@[simp] theorem State.complete_rateWarn (r : Result) : (s.complete r).rateWarn = s.rateWarn := rfl
@[simp] theorem State.complete_result (r : Result) : (s.complete r).result = r := rfl
@[simp] theorem State.complete_buf (r : Result) : (s.complete r).buf = s.buf := rfl
@[simp] theorem State.complete_cfg (r : Result) : (s.complete r).cfg = s.cfg := rfl
@[simp] theorem State.complete_cmdPort (r : Result) : (s.complete r).cmdPort = s.cmdPort := rfl
@[simp] theorem State.complete_txAnswers (r : Result) : (s.complete r).txAnswers = s.txAnswers := rfl
@[simp] theorem State.complete_txDraws (r : Result) : (s.complete r).txDraws = s.txDraws := rfl
@[simp] theorem State.complete_outputs (r : Result) :
    (s.complete r).outputs = s.outputs ++ [.response (responseWord r s.ready s.rateWarn)] := rfl

@[simp] theorem State.raise_ready (r : Result) : (s.raise r).ready = s.ready := rfl
@[simp] theorem State.raise_ledCount (r : Result) : (s.raise r).ledCount = s.ledCount := rfl
@[simp] theorem State.raise_latchBytes (r : Result) : (s.raise r).latchBytes = s.latchBytes := rfl
@[simp] theorem State.raise_rateHz (r : Result) : (s.raise r).rateHz = s.rateHz := rfl
@[simp] theorem State.raise_rateWarn (r : Result) : (s.raise r).rateWarn = s.rateWarn := rfl
@[simp] theorem State.raise_result (r : Result) : (s.raise r).result = r := rfl
@[simp] theorem State.raise_buf (r : Result) : (s.raise r).buf = s.buf := rfl
@[simp] theorem State.raise_cfg (r : Result) : (s.raise r).cfg = s.cfg := rfl
@[simp] theorem State.raise_cmdPort (r : Result) : (s.raise r).cmdPort = s.cmdPort := rfl
@[simp] theorem State.raise_txAnswers (r : Result) : (s.raise r).txAnswers = s.txAnswers := rfl
@[simp] theorem State.raise_txDraws (r : Result) : (s.raise r).txDraws = s.txDraws := rfl
@[simp] theorem State.raise_outputs (r : Result) :
    (s.raise r).outputs = s.outputs ++ [.response (responseWord r s.ready s.rateWarn)] := rfl

@[simp] theorem State.configure_ready (n : BitVec 16) (l : BitVec 8) (f : BitVec 32) :
    (s.configure n l f).ready = s.ready := rfl
@[simp] theorem State.configure_ledCount (n : BitVec 16) (l : BitVec 8) (f : BitVec 32) :
    (s.configure n l f).ledCount = n := rfl
@[simp] theorem State.configure_latchBytes (n : BitVec 16) (l : BitVec 8) (f : BitVec 32) :
    (s.configure n l f).latchBytes = l := rfl
@[simp] theorem State.configure_rateHz (n : BitVec 16) (l : BitVec 8) (f : BitVec 32) :
    (s.configure n l f).rateHz = f := rfl
@[simp] theorem State.configure_rateWarn (n : BitVec 16) (l : BitVec 8) (f : BitVec 32) :
    (s.configure n l f).rateWarn = s.rateWarn := rfl
@[simp] theorem State.configure_result (n : BitVec 16) (l : BitVec 8) (f : BitVec 32) :
    (s.configure n l f).result = s.result := rfl
@[simp] theorem State.configure_buf (n : BitVec 16) (l : BitVec 8) (f : BitVec 32) :
    (s.configure n l f).buf = s.buf := rfl
@[simp] theorem State.configure_cfg (n : BitVec 16) (l : BitVec 8) (f : BitVec 32) :
    (s.configure n l f).cfg = s.cfg := rfl
@[simp] theorem State.configure_cmdPort (n : BitVec 16) (l : BitVec 8) (f : BitVec 32) :
    (s.configure n l f).cmdPort = s.cmdPort := rfl
@[simp] theorem State.configure_txAnswers (n : BitVec 16) (l : BitVec 8) (f : BitVec 32) :
    (s.configure n l f).txAnswers = s.txAnswers := rfl
@[simp] theorem State.configure_txDraws (n : BitVec 16) (l : BitVec 8) (f : BitVec 32) :
    (s.configure n l f).txDraws = s.txDraws := rfl
@[simp] theorem State.configure_outputs (n : BitVec 16) (l : BitVec 8) (f : BitVec 32) :
    (s.configure n l f).outputs = s.outputs := rfl

@[simp] theorem State.rateCheck_ready (f : BitVec 32) : (s.rateCheck f).ready = s.ready := rfl
@[simp] theorem State.rateCheck_ledCount (f : BitVec 32) : (s.rateCheck f).ledCount = s.ledCount := rfl
@[simp] theorem State.rateCheck_latchBytes (f : BitVec 32) : (s.rateCheck f).latchBytes = s.latchBytes := rfl
@[simp] theorem State.rateCheck_rateHz (f : BitVec 32) : (s.rateCheck f).rateHz = s.rateHz := rfl
@[simp] theorem State.rateCheck_rateWarn (f : BitVec 32) : (s.rateCheck f).rateWarn = rateOutOfRange s.cfg f := rfl
@[simp] theorem State.rateCheck_result (f : BitVec 32) : (s.rateCheck f).result = s.result := rfl
@[simp] theorem State.rateCheck_buf (f : BitVec 32) : (s.rateCheck f).buf = s.buf := rfl
@[simp] theorem State.rateCheck_cfg (f : BitVec 32) : (s.rateCheck f).cfg = s.cfg := rfl
@[simp] theorem State.rateCheck_cmdPort (f : BitVec 32) : (s.rateCheck f).cmdPort = s.cmdPort := rfl
@[simp] theorem State.rateCheck_txAnswers (f : BitVec 32) : (s.rateCheck f).txAnswers = s.txAnswers := rfl
@[simp] theorem State.rateCheck_txDraws (f : BitVec 32) : (s.rateCheck f).txDraws = s.txDraws := rfl
@[simp] theorem State.rateCheck_outputs (f : BitVec 32) :
    (s.rateCheck f).outputs = s.outputs ++ rateEvents s.cfg f := rfl

@[simp] theorem State.allocate_ready (k : Nat) : (s.allocate k).ready = true := rfl
@[simp] theorem State.allocate_ledCount (k : Nat) : (s.allocate k).ledCount = s.ledCount := rfl
@[simp] theorem State.allocate_latchBytes (k : Nat) : (s.allocate k).latchBytes = s.latchBytes := rfl
@[simp] theorem State.allocate_rateHz (k : Nat) : (s.allocate k).rateHz = s.rateHz := rfl
@[simp] theorem State.allocate_rateWarn (k : Nat) : (s.allocate k).rateWarn = s.rateWarn := rfl
@[simp] theorem State.allocate_result (k : Nat) : (s.allocate k).result = s.result := rfl
@[simp] theorem State.allocate_buf (k : Nat) : (s.allocate k).buf = Memory.zeros k := rfl
@[simp] theorem State.allocate_cfg (k : Nat) : (s.allocate k).cfg = s.cfg := rfl
@[simp] theorem State.allocate_cmdPort (k : Nat) : (s.allocate k).cmdPort = s.cmdPort := rfl
@[simp] theorem State.allocate_txAnswers (k : Nat) : (s.allocate k).txAnswers = s.txAnswers := rfl
@[simp] theorem State.allocate_txDraws (k : Nat) : (s.allocate k).txDraws = s.txDraws := rfl
@[simp] theorem State.allocate_outputs (k : Nat) : (s.allocate k).outputs = s.outputs := rfl

@[simp] theorem State.discard_ready : (s.discard).ready = false := rfl
@[simp] theorem State.discard_ledCount : (s.discard).ledCount = s.ledCount := rfl
@[simp] theorem State.discard_latchBytes : (s.discard).latchBytes = s.latchBytes := rfl
@[simp] theorem State.discard_rateHz : (s.discard).rateHz = s.rateHz := rfl
@[simp] theorem State.discard_rateWarn : (s.discard).rateWarn = s.rateWarn := rfl
@[simp] theorem State.discard_result : (s.discard).result = s.result := rfl
@[simp] theorem State.discard_buf : (s.discard).buf = Memory.empty := rfl
@[simp] theorem State.discard_cfg : (s.discard).cfg = s.cfg := rfl
@[simp] theorem State.discard_cmdPort : (s.discard).cmdPort = s.cmdPort := rfl
@[simp] theorem State.discard_txAnswers : (s.discard).txAnswers = s.txAnswers := rfl
@[simp] theorem State.discard_txDraws : (s.discard).txDraws = s.txDraws := rfl
@[simp] theorem State.discard_outputs : (s.discard).outputs = s.outputs := rfl

@[simp] theorem State.requestTx_ready : (s.requestTx).ready = s.ready := rfl
@[simp] theorem State.requestTx_ledCount : (s.requestTx).ledCount = s.ledCount := rfl
@[simp] theorem State.requestTx_latchBytes : (s.requestTx).latchBytes = s.latchBytes := rfl
@[simp] theorem State.requestTx_rateHz : (s.requestTx).rateHz = s.rateHz := rfl
@[simp] theorem State.requestTx_rateWarn : (s.requestTx).rateWarn = s.rateWarn := rfl
@[simp] theorem State.requestTx_result : (s.requestTx).result = s.result := rfl
@[simp] theorem State.requestTx_buf : (s.requestTx).buf = s.buf := rfl
@[simp] theorem State.requestTx_cfg : (s.requestTx).cfg = s.cfg := rfl
@[simp] theorem State.requestTx_cmdPort : (s.requestTx).cmdPort = s.cmdPort := rfl
@[simp] theorem State.requestTx_txAnswers : (s.requestTx).txAnswers = s.txAnswers.tail := rfl
@[simp] theorem State.requestTx_txDraws : (s.requestTx).txDraws = s.txDraws + 1 := rfl
@[simp] theorem State.requestTx_outputs :
    (s.requestTx).outputs = s.outputs ++ [.tx { bytes := s.buf.bytes, len := s.buf.len, rate := s.rateHz }] := rfl

@[simp] theorem State.takeCommand_ready (rest : List Word) : (s.takeCommand rest).ready = s.ready := rfl
@[simp] theorem State.takeCommand_ledCount (rest : List Word) : (s.takeCommand rest).ledCount = s.ledCount := rfl
@[simp] theorem State.takeCommand_latchBytes (rest : List Word) :
    (s.takeCommand rest).latchBytes = s.latchBytes := rfl
@[simp] theorem State.takeCommand_rateHz (rest : List Word) : (s.takeCommand rest).rateHz = s.rateHz := rfl
@[simp] theorem State.takeCommand_rateWarn (rest : List Word) : (s.takeCommand rest).rateWarn = s.rateWarn := rfl
@[simp] theorem State.takeCommand_result (rest : List Word) : (s.takeCommand rest).result = s.result := rfl
@[simp] theorem State.takeCommand_buf (rest : List Word) : (s.takeCommand rest).buf = s.buf := rfl
@[simp] theorem State.takeCommand_cfg (rest : List Word) : (s.takeCommand rest).cfg = s.cfg := rfl
@[simp] theorem State.takeCommand_cmdPort (rest : List Word) : (s.takeCommand rest).cmdPort = rest := rfl
@[simp] theorem State.takeCommand_txAnswers (rest : List Word) : (s.takeCommand rest).txAnswers = s.txAnswers := rfl
@[simp] theorem State.takeCommand_txDraws (rest : List Word) : (s.takeCommand rest).txDraws = s.txDraws := rfl
@[simp] theorem State.takeCommand_outputs (rest : List Word) : (s.takeCommand rest).outputs = s.outputs := rfl

@[simp] theorem State.placeCommand_ready (ws : List Word) : (s.placeCommand ws).ready = s.ready := rfl
@[simp] theorem State.placeCommand_ledCount (ws : List Word) : (s.placeCommand ws).ledCount = s.ledCount := rfl
@[simp] theorem State.placeCommand_latchBytes (ws : List Word) : (s.placeCommand ws).latchBytes = s.latchBytes := rfl
@[simp] theorem State.placeCommand_rateHz (ws : List Word) : (s.placeCommand ws).rateHz = s.rateHz := rfl
@[simp] theorem State.placeCommand_rateWarn (ws : List Word) : (s.placeCommand ws).rateWarn = s.rateWarn := rfl
@[simp] theorem State.placeCommand_result (ws : List Word) : (s.placeCommand ws).result = s.result := rfl
@[simp] theorem State.placeCommand_buf (ws : List Word) : (s.placeCommand ws).buf = s.buf := rfl
@[simp] theorem State.placeCommand_cfg (ws : List Word) : (s.placeCommand ws).cfg = s.cfg := rfl
@[simp] theorem State.placeCommand_cmdPort (ws : List Word) : (s.placeCommand ws).cmdPort = ws ++ s.cmdPort := rfl
@[simp] theorem State.placeCommand_txAnswers (ws : List Word) : (s.placeCommand ws).txAnswers = s.txAnswers := rfl
@[simp] theorem State.placeCommand_txDraws (ws : List Word) : (s.placeCommand ws).txDraws = s.txDraws := rfl
@[simp] theorem State.placeCommand_outputs (ws : List Word) : (s.placeCommand ws).outputs = s.outputs := rfl

@[simp] theorem State.deliver_ready (ws : List Word) : (s.deliver ws).ready = s.ready := rfl
@[simp] theorem State.deliver_ledCount (ws : List Word) : (s.deliver ws).ledCount = s.ledCount := rfl
@[simp] theorem State.deliver_latchBytes (ws : List Word) : (s.deliver ws).latchBytes = s.latchBytes := rfl
@[simp] theorem State.deliver_rateHz (ws : List Word) : (s.deliver ws).rateHz = s.rateHz := rfl
@[simp] theorem State.deliver_rateWarn (ws : List Word) : (s.deliver ws).rateWarn = s.rateWarn := rfl
@[simp] theorem State.deliver_result (ws : List Word) : (s.deliver ws).result = s.result := rfl
@[simp] theorem State.deliver_buf (ws : List Word) : (s.deliver ws).buf = s.buf := rfl
@[simp] theorem State.deliver_cfg (ws : List Word) : (s.deliver ws).cfg = s.cfg := rfl
@[simp] theorem State.deliver_cmdPort (ws : List Word) : (s.deliver ws).cmdPort = s.cmdPort ++ ws := rfl
@[simp] theorem State.deliver_txAnswers (ws : List Word) : (s.deliver ws).txAnswers = s.txAnswers := rfl
@[simp] theorem State.deliver_txDraws (ws : List Word) : (s.deliver ws).txDraws = s.txDraws := rfl
@[simp] theorem State.deliver_outputs (ws : List Word) : (s.deliver ws).outputs = s.outputs := rfl

/-- `RATE_WARN`'s rule as R170 words it. -/
theorem rateOutOfRange_iff (c : Config) (f : BitVec 32) :
    rateOutOfRange c f = true ↔ (f.toNat < c.rateMinHz ∨ c.rateMaxHz < f.toNat) := by simp [rateOutOfRange]

theorem rateEvents_cases (c : Config) (f : BitVec 32) :
    (rateOutOfRange c f = true ∧ rateEvents c f = [.warn f]) ∨
      (rateOutOfRange c f = false ∧ rateEvents c f = []) := by
  cases h : rateOutOfRange c f <;> simp [rateEvents, h]

/-- The fields of a response word (R92). -/
theorem responseWord_fields (r : Result) (a b : Bool) :
    (responseWord r a b).extractLsb' 0 8 = r.code ∧ (responseWord r a b).getLsbD 8 = a ∧
      (responseWord r a b).getLsbD 9 = b ∧ (responseWord r a b).extractLsb' 10 22 = 0#22 := by
  cases r <;> cases a <;> cases b <;> decide

/-- Raising an error is ending the command with that result (R202). -/
theorem State.raise_eq_complete (r : Result) : s.raise r = s.complete r := rfl

/-- Refusing an illegal command is raising BAD_COMMAND once its words are off the port (R204). -/
theorem State.refuseIllegal_eq (rest : List Word) :
    s.refuseIllegal rest = (s.takeCommand rest).raise .badCommand := rfl

@[simp] theorem State.fetch_eq : s.fetch = decode s.cmdPort := rfl

end Sys2Proof.Machine
end

