-- ==== Sys2Proof/Laws/Exec.lean ====
section
/-! SUPPORT. Everything a command and a step can do, said once: cite these and do not unfold the meanings. -/

namespace Sys2Proof.Machine

/-- Everything INIT can do (R133): it succeeds, or it fails for want of capacity. -/
theorem execInit_cases (n : BitVec 16) (l : BitVec 8) (f : BitVec 32) (s : State) :
    (bufferSize n.toNat l.toNat ≤ s.cfg.bufCapacity ∧
        execInit n l f s =
          .next ((((s.configure n l f).rateCheck f).allocate (bufferSize n.toNat l.toNat)).complete .ok)) ∨
      (s.cfg.bufCapacity < bufferSize n.toNat l.toNat ∧
        execInit n l f s = .next (((s.configure n l f).rateCheck f).discard.raise .allocFail)) := by
  by_cases h : s.cfg.bufCapacity < bufferSize n.toNat l.toNat
  · exact .inr ⟨h, by simp [execInit, h]⟩
  · exact .inl ⟨by omega, by simp [execInit, h]⟩

/-- The state after an ENCODE whose stores are in range. -/
def State.encoded (cs : List Colour) (s : State) : State :=
  State.complete .ok { s with buf := encodedBuffer s.cfg.lut s.latchBytes.toNat cs s.buf }

@[simp] theorem State.encoded_buf (cs : List Colour) (s : State) :
    (s.encoded cs).buf = encodedBuffer s.cfg.lut s.latchBytes.toNat cs s.buf := rfl

@[simp] theorem State.encoded_result (cs : List Colour) (s : State) : (s.encoded cs).result = .ok := rfl

@[simp] theorem State.encoded_outputs (cs : List Colour) (s : State) :
    (s.encoded cs).outputs = s.outputs ++ [.response (responseWord .ok s.ready s.rateWarn)] := rfl

/-- ENCODE's other fields stay. -/
theorem State.encoded_frame (cs : List Colour) (s : State) :
    (s.encoded cs).ready = s.ready ∧ (s.encoded cs).ledCount = s.ledCount ∧
      (s.encoded cs).latchBytes = s.latchBytes ∧ (s.encoded cs).rateHz = s.rateHz ∧
      (s.encoded cs).rateWarn = s.rateWarn ∧ (s.encoded cs).cfg = s.cfg ∧ (s.encoded cs).cmdPort = s.cmdPort ∧
      (s.encoded cs).txAnswers = s.txAnswers ∧ (s.encoded cs).txDraws = s.txDraws :=
  ⟨rfl, rfl, rfl, rfl, rfl, rfl, rfl, rfl, rfl⟩

/-- Everything ENCODE can do (R139, R140): NOT_READY, LEN_MISMATCH, the whole expansion, or the fault of a store outside
the buffer. -/
theorem execEncode_cases (cs : List Colour) (s : State) :
    (s.ready = false ∧ execEncode cs s = .next (s.raise .notReady)) ∨
      (s.ready = true ∧ cs.length ≠ s.ledCount.toNat ∧ execEncode cs s = .next (s.raise .lenMismatch)) ∨
      (s.ready = true ∧ cs.length = s.ledCount.toNat ∧
        (∀ w ∈ encodeStores s.cfg.lut s.latchBytes.toNat cs, w.1 < s.buf.len) ∧
        execEncode cs s = .next (s.encoded cs)) ∨
      (s.ready = true ∧ cs.length = s.ledCount.toNat ∧
        ∃ w ∈ encodeStores s.cfg.lut s.latchBytes.toNat cs,
          s.buf.len ≤ w.1 ∧ execEncode cs s = .fault (.bufferOutOfRange w.1)) := by
  cases hr : s.ready with
  | false => exact .inl ⟨rfl, by simp [execEncode, hr]⟩
  | true =>
    by_cases hl : cs.length = s.ledCount.toNat
    · rcases Memory.storeAll_cases (encodeStores s.cfg.lut s.latchBytes.toNat cs) s.buf with ⟨hall, he⟩ | ⟨w, hw, hle, he⟩
      · refine .inr (.inr (.inl ⟨rfl, hl, hall, ?_⟩))
        simp [execEncode, hr, hl, he, State.encoded, encodedBuffer]
      · refine .inr (.inr (.inr ⟨rfl, hl, w, hw, hle, ?_⟩))
        simp [execEncode, hr, hl, he]
    · exact .inr (.inl ⟨rfl, hl, by simp [execEncode, hr, hl]⟩)

/-- An ENCODE of the configured length on a buffer of the right length has its whole effect (R140, R145). -/
theorem execEncode_completes {cs : List Colour} {s : State} (hr : s.ready = true)
    (hl : cs.length = s.ledCount.toNat)
    (hlen : s.buf.len = 12 * s.ledCount.toNat + 2 * s.latchBytes.toNat) :
    execEncode cs s = .next (s.encoded cs) := by
  rcases execEncode_cases cs s with ⟨h, _⟩ | ⟨_, h, _⟩ | ⟨_, _, _, h⟩ | ⟨_, _, w, hw, hle, _⟩
  · rw [hr] at h; cases h
  · exact absurd hl h
  · exact h
  · have := encodeStores_range hw
    omega

/-- Everything TRANSMIT can do (R180): NOT_READY, or one request and the result of its answer. -/
theorem execTransmit_cases (s : State) :
    (s.ready = false ∧ execTransmit s = .next (s.raise .notReady)) ∨
      (s.ready = true ∧ execTransmit s = .next (s.requestTx.complete (answerResult s.nextAnswer))) := by
  cases hr : s.ready with
  | false => exact .inl ⟨rfl, by simp [execTransmit, hr]⟩
  | true =>
    refine .inr ⟨rfl, ?_⟩
    cases ha : s.nextAnswer <;> simp [execTransmit, hr, ha, answerResult, State.raise_eq_complete]

/-- Everything a step can do: run the decoded command, refuse an illegal one, or hold. -/
theorem step_cases (s : State) :
    (∃ i rest, decode s.cmdPort = .instr i rest ∧ step s = exec i (s.takeCommand rest)) ∨
      (∃ why rest, decode s.cmdPort = .illegal why rest ∧ step s = .next (s.refuseIllegal rest)) ∨
      (decode s.cmdPort = .incomplete ∧ step s = .next s) := by
  cases h : decode s.cmdPort with
  | instr i rest => exact .inl ⟨i, rest, rfl, by simp [step, h]⟩
  | illegal why rest => exact .inr (.inl ⟨why, rest, rfl, by simp [step, h]⟩)
  | incomplete => exact .inr (.inr ⟨rfl, by simp [step, h]⟩)

end Sys2Proof.Machine
end

