-- ==== Sys2Proof/Laws/PerInstr.lean ====
section
/-! SUPPORT. Statements made per command, about it as syntax: one lemma for each constructor of `Instr`. -/

namespace Sys2Proof.Laws.EncodeLength

/-- The encoder writes a header and as many words as the header announces (spec/30_encoding.md R89). -/
def Statement (i : Instr) : Prop :=
  i.wellFormed = true → ∃ h ws, encode i = h :: ws ∧ commandLength h = 1 + ws.length

theorem init (n : BitVec 16) (l : BitVec 8) (f : BitVec 32) : Statement (.init n l f) := by
  intro _
  refine ⟨0x01#8 ++ l ++ n, [f], rfl, ?_⟩
  have h : opcodeOf (0x01#8 ++ l ++ n) = 0x01#8 := opcodeOf_initHeader _ _ _
  simp [commandLength, h]

theorem encode (cs : List Colour) : Statement (.encode cs) := by
  intro hwf
  simp only [Instr.wellFormed, decide_eq_true_eq] at hwf
  refine ⟨0x02#8 ++ BitVec.ofNat 24 cs.length, cs.map encodeColour, rfl, ?_⟩
  have h : opcodeOf (0x02#8 ++ BitVec.ofNat 24 cs.length) = 0x02#8 := opcodeOf_header _ _
  have hf : headerField (0x02#8 ++ BitVec.ofNat 24 cs.length) = BitVec.ofNat 24 cs.length := headerField_header _ _
  simp only [commandLength, h, hf, List.length_map, BitVec.toNat_ofNat, Nat.mod_eq_of_lt hwf]
  rfl

theorem transmit : Statement .transmit := by
  intro _
  refine ⟨0x03#8 ++ 0#24, [], rfl, ?_⟩
  have h : opcodeOf (0x03#8 ++ 0#24) = 0x03#8 := opcodeOf_header _ _
  simp only [commandLength, h]
  rfl

end Sys2Proof.Laws.EncodeLength
end

