-- ==== Sys2Proof/Tests/Slice0.lean ====
section
/-! SUPPORT. The model's own tests, each with the place its expected value comes from, and for every statement with
hypotheses a state and operands that meet them. -/

namespace Sys2Proof.Tests

open Sys2Proof.Machine

/-! ### Well-formedness -/

/-- An ENCODE of `2^24` colours has no 24-bit count (R87). -/
theorem test_wellFormed_refuses_too_many_colours :
    Instr.wellFormed (.encode (List.replicate (2 ^ 24) ⟨0#8, 0#8, 0#8⟩)) = false := by
  rw [Instr.wellFormed, List.length_replicate]
  decide

/-- The largest count fits (R87). -/
theorem test_wellFormed_takes_largest_count :
    Instr.wellFormed (.encode (List.replicate (2 ^ 24 - 1) ⟨0#8, 0#8, 0#8⟩)) = true := by
  rw [Instr.wellFormed, List.length_replicate]
  decide

/-! ### Decoding: words written out from R86, R87, R88 and R93 -/

/-- `00000001 llllllll nnnnnnnnnnnnnnnn ; f` with l = 3, n = 1, f = 3000000 (R86). -/
theorem test_decode_init :
    decode [0b00000001000000110000000000000001#32, 0x002DC6C0#32, 0xAAAAAAAA#32] =
      .instr (.init 1#16 3#8 3000000#32) [0xAAAAAAAA#32] := by decide

/-- `00000010` and M = 2, then two words `00000000 rrrrrrrr gggggggg bbbbbbbb` (R87). -/
theorem test_decode_encode :
    decode [0b00000010000000000000000000000010#32, 0b00000000000100100011010001010110#32, 0x00800001#32] =
      .instr (.encode [⟨0x12#8, 0x34#8, 0x56#8⟩, ⟨0x80#8, 0x00#8, 0x01#8⟩]) [] := by decide

/-- `00000011` and 24 zero bits (R88). -/
theorem test_decode_transmit :
    decode [0b00000011000000000000000000000000#32] = .instr .transmit [] := by decide

/-- The illegal forms of R93, each as long as R89 says. -/
theorem test_decode_illegal :
    decode [0x02000001#32, 0x01FF0080#32, 0x03000000#32] = .illegal .colourReserved [0x03000000#32] ∧
    decode [0x03800000#32] = .illegal (.transmitReserved 0x800000#24) [] ∧
    decode [0xFF123456#32, 0x00000000#32] = .illegal (.unassignedOpcode 0xFF#8) [0x00000000#32] := by decide

/-- The encoder writes the words of spec/95_test_vectors.md 2.3 and 2.4. -/
theorem test_encode_words :
    encode (.init 10#16 0#8 5000000#32) = [0x0100000A#32, 0x004C4B40#32] ∧
    encode (.encode [⟨0xFF#8, 0x00#8, 0x80#8⟩]) = [0x02000001#32, 0x00FF0080#32] ∧
    encode .transmit = [0x03000000#32] := by decide

/-- The table's rows with operand bits left zero, or given: a later word's bits count on from the first word's. -/
theorem test_decodeTableWord :
    decodeTableWord 32 0x01000000 = some (.init 0#16 0#8 0#32) ∧
    decodeTableWord 64 0x002DC6C001030001 = some (.init 1#16 3#8 3000000#32) ∧
    decodeTableWord 32 0x02000000 = some (.encode []) ∧
    decodeTableWord 32 0x02000002 = some (.encode [⟨0#8, 0#8, 0#8⟩, ⟨0#8, 0#8, 0#8⟩]) ∧
    decodeTableWord 32 0x03000000 = some .transmit ∧
    decodeTableWord 32 0x03000001 = none := by decide

/-! ### Small states -/

/-- The next state of an outcome, for tests that look at some of its fields. -/
def nextState (o : Host.Outcome State Fault Refusal) : Option State :=
  match o with
  | .next t => some t
  | .fault _ => none
  | .refused _ => none

theorem exists_next {o : Host.Outcome State Fault Refusal} (h : (nextState o).isSome = true) : ∃ t, o = .next t := by
  cases o with
  | next t => exact ⟨t, rfl⟩
  | fault r => cases h
  | refused r => cases h

/-- After a successful `INIT n, l, f` from reset (R135), with a capacity of its own. -/
def readyState (cap : Nat) (n : BitVec 16) (l : BitVec 8) (f : BitVec 32) : State :=
  { State.reset with
    ready := true
    ledCount := n
    latchBytes := l
    rateHz := f
    buf := Memory.zeros (12 * n.toNat + 2 * l.toNat)
    cfg := { Config.standard with bufCapacity := cap } }

/-- The worked example's colour (spec/95_test_vectors.md W1). -/
def w1 : Colour := ⟨0xFF#8, 0x00#8, 0x80#8⟩

/-- `INIT 1, 3, 3000000`. -/
def oneLed : State := readyState 786930 1#16 3#8 3000000#32

/-- `INIT 0, 3, 3000000`. -/
def noLed : State := readyState 786930 0#16 3#8 3000000#32

/-- Not ready, with a capacity. -/
def coldState (cap : Nat) : State := { State.reset with cfg := { Config.standard with bufCapacity := cap } }

theorem readyState_inv (cap : Nat) (n : BitVec 16) (l : BitVec 8) (f : BitVec 32)
    (hf : 2050000 ≤ f.toNat ∧ f.toNat ≤ 4000000) : BlockInv (readyState cap n l f) := by
  refine ⟨rfl, fun _ => rfl, nofun, fun _ a ha _ => Memory.read_eq_ok.mpr ⟨ha, rfl⟩, fun _ => ?_⟩
  constructor
  · intro h
    cases h
  · intro h
    have h' : f.toNat < 2050000 ∨ 4000000 < f.toNat := h
    omega

theorem oneLed_inv : BlockInv oneLed := readyState_inv _ _ _ _ (by decide)

theorem noLed_inv : BlockInv noLed := readyState_inv _ _ _ _ (by decide)

/-! ### One step of each command: spec/95_test_vectors.md -/

/-- 2.3: `INIT 1, 3, 3000000` from reset answers 0x100, with 18 zero bytes. -/
theorem test_init_from_reset :
    (nextState (exec (.init 1#16 3#8 3000000#32) State.reset)).map (fun t => (t.buf, t.outputs, t.ready)) =
      some (⟨18, []⟩, [.response 0x100#32], true) := by decide

/-- 2.3: `INIT 10, 0, 5000000` with BUF_CAPACITY = 100 warns, then answers 0x202, not ready. -/
theorem test_init_beyond_capacity :
    (nextState (exec (.init 10#16 0#8 5000000#32) (readyState 100 0#16 3#8 3000000#32))).map
        (fun t => (t.buf, t.outputs, t.rateHz)) =
      some (⟨0, []⟩, [.warn 5000000#32, .response 0x202#32], 5000000#32) := by decide

/-- W1: the worked example's 18 bytes, and 0x100. -/
theorem test_encode_worked_example :
    (nextState (exec (.encode [w1]) oneLed)).map (fun t => (t.buf.bytes, t.outputs)) =
      some ([0#8, 0#8, 0#8, 0xCC#8, 0xCC#8, 0xCC#8, 0xCC#8, 0x88#8, 0x88#8, 0x88#8, 0x88#8, 0xC8#8, 0x88#8, 0x88#8,
        0x88#8, 0#8, 0#8, 0#8], [.response 0x100#32]) := by decide

/-- 2.4: two colours for one LED answer 0x103 and write nothing. -/
theorem test_encode_length_mismatch :
    (nextState (exec (.encode [w1, w1]) oneLed)).map (fun t => (t.buf, t.outputs)) =
      some (⟨18, []⟩, [.response 0x103#32]) := by decide

/-- 2.5: answer fail: one request with the zero buffer of INIT, then 0x104. -/
theorem test_transmit_fails :
    (nextState (exec .transmit { oneLed with txAnswers := [.fail, .ok] })).map (fun t => (t.outputs, t.txAnswers)) =
      some ([.tx ⟨List.replicate 18 0#8, 18, 3000000#32⟩, .response 0x104#32], [.ok]) := by decide

/-- D28: no LEDs and no latch: an empty request is still made, answer ok, 0x100. -/
theorem test_transmit_empty_buffer :
    (nextState (exec .transmit { readyState 0 0#16 0#8 3000000#32 with txAnswers := [.ok] })).map State.outputs =
      some [.tx ⟨[], 0, 3000000#32⟩, .response 0x100#32] := by decide

/-- 2.4, 2.5: before INIT an ENCODE with a reserved bit answers 0x005, one without answers 0x001. -/
theorem test_step_before_init :
    (nextState (step (State.reset.deliver [0x02000001#32, 0x01010203#32]))).map State.outputs =
      some [.response 0x005#32] ∧
    (nextState (step (State.reset.deliver [0x02000001#32, 0x00010203#32]))).map State.outputs =
      some [.response 0x001#32] := by decide

/-- `step` runs the command that `withFetchWord` places, as the first after reset. -/
theorem test_withFetchWord_runs :
    (nextState (step (State.reset.withFetchWord 64 0x002DC6C001030001))).map State.outputs =
      some [.response 0x100#32] ∧
    (nextState (step (State.reset.withFetchWord 32 0x02000001))).map State.outputs = some [.response 0x001#32] ∧
    (nextState (step (State.reset.withFetchWord 32 0x03000000))).map State.outputs = some [.response 0x001#32] := by
  decide

/-- A store outside the buffer is a fault (R52). -/
theorem test_write_out_of_range : Memory.write ⟨18, []⟩ 18 0xCC#8 = .error (.bufferOutOfRange 18) := by rfl

/-! ### The table and the wire: spec/95_test_vectors.md 2.1, 2.2 and the table of R241 -/

/-- 2.1: which tables are valid. -/
theorem test_table_validity :
    Lut.valid 2 ⟨0x88#8, 0x8C#8, 0xC8#8, 0xCC#8⟩ = true ∧ Lut.valid 2 ⟨0x88#8, 0x8E#8, 0xE8#8, 0xEE#8⟩ = true ∧
    Lut.valid 2 ⟨0x88#8, 0x8C#8, 0xE8#8, 0xCC#8⟩ = true ∧ Lut.valid 2 ⟨0x00#8, 0x8C#8, 0xC8#8, 0xCC#8⟩ = false ∧
    Lut.valid 2 ⟨0x8C#8, 0x88#8, 0xC8#8, 0xCC#8⟩ = false ∧ Lut.valid 2 ⟨0x88#8, 0x8C#8, 0xC8#8, 0xCF#8⟩ = false ∧
    Lut.valid 2 ⟨0x88#8, 0x8A#8, 0xC8#8, 0xCC#8⟩ = false ∧ Lut.valid 3 Lut.standard = false ∧
    Lut.valid 1 Lut.standard = false := by decide

/-- 2.2: the expansion of 0x123456 and of 0xE41B00. -/
theorem test_symbol_bytes :
    symbolBytes Lut.standard ⟨0x12#8, 0x34#8, 0x56#8⟩ = [0x88#8, 0x8C#8, 0x88#8, 0xC8#8, 0x88#8, 0xCC#8, 0x8C#8, 0x88#8,
      0x8C#8, 0x8C#8, 0x8C#8, 0xC8#8] ∧
    symbolBytes Lut.standard ⟨0xE4#8, 0x1B#8, 0x00#8⟩ = [0xCC#8, 0xC8#8, 0x8C#8, 0x88#8, 0x88#8, 0x8C#8, 0xC8#8, 0xCC#8,
      0x88#8, 0x88#8, 0x88#8, 0x88#8] := by decide

/-- R83: the cells of 0x8C, `H L L L  H H L L`. -/
theorem test_byte_cells : byteCells 0x8C#8 = [true, false, false, false, true, true, false, false] := by decide

/-- R241 at 4 MHz: "0" is 250 ns high and 750 ns low, "1" is 500 and 500 ns; a bit 1 µs, an LED 24 µs, a latch of 3
bytes 6 µs. -/
theorem test_wire_timing :
    nibblePulse 0x8#4 4000000#32 = some (250 / 1000000000, 750 / 1000000000) ∧
    nibblePulse 0xC#4 4000000#32 = some (500 / 1000000000, 500 / 1000000000) ∧
    bitDuration 4000000#32 = some (1 / 1000000) ∧ ledDuration 4000000#32 = some (24 / 1000000) ∧
    latchDuration 3 4000000#32 = some (6 / 1000000) ∧
    frameDuration 1 3 4000000#32 = some (36 / 1000000) ∧ ledDuration 0#32 = none := by decide +kernel

/-- R113, R114, R241: `0b1010` has two high runs, so it is no symbol: it decodes to nothing and has no pulse. -/
theorem test_no_pulse_of_an_ill_formed_nibble :
    decodeNibble 2 0xA#4 = none ∧ nibblePulse 0xA#4 4000000#32 = none := by decide

/-! ### Witnesses: a state and operands that meet the hypotheses of each statement -/

theorem witness_DecodeOfEncodeIsTheCommand : Instr.wellFormed (.encode [w1]) = true := by decide

theorem witness_EncodeOfDecodeIsTheWords :
    decode [0x03000000#32, 0x04000000#32] = .instr .transmit [0x04000000#32] := by decide

/-- An unassigned opcode at each end of its ranges, a reserved TRANSMIT bit at each end, a reserved colour bit, and legal
commands. -/
theorem witness_DecodeIsTotalAndNamesIllegalCommands :
    (1 + ([] : List Word).length = commandLength 0x00FFFFFF#32 ∧ opcodeOf 0x00FFFFFF#32 = 0x00#8) ∧
    (1 + ([] : List Word).length = commandLength 0x04000000#32 ∧ opcodeOf 0x04000000#32 = 0x04#8) ∧
    (1 + ([] : List Word).length = commandLength 0x03000001#32 ∧ opcodeOf 0x03000001#32 = 0x03#8) ∧
    (1 + [0x00000000#32, 0x01000000#32].length = commandLength 0x02000002#32 ∧ opcodeOf 0x02000002#32 = 0x02#8 ∧
      0x01000000#32 ∈ [0x00000000#32, 0x01000000#32] ∧ BitVec.extractLsb' 24 8 0x01000000#32 ≠ 0#8) ∧
    (1 + [0x00000000#32].length = commandLength 0x01030001#32 ∧ opcodeOf 0x01030001#32 = 0x01#8) ∧
    (1 + [0x00000000#32].length < commandLength 0x02000002#32) := by decide

theorem witness_StepRunsTheDecodedCommand :
    decode (State.reset.deliver [0x03000000#32]).cmdPort = .instr .transmit [] := by decide

theorem witness_IllegalCommandChangesOnlyResult :
    ((oneLed.deliver [0xFF123456#32, 0#32]).cmdPort = 0xFF123456#32 :: ([] ++ [0#32]) ∧
      1 + ([] : List Word).length = commandLength 0xFF123456#32 ∧ opcodeOf 0xFF123456#32 = 0xFF#8) ∧
    ((oneLed.deliver [0x03000001#32]).cmdPort = 0x03000001#32 :: ([] ++ []) ∧
      BitVec.extractLsb' 0 24 0x03000001#32 ≠ 0#24) ∧
    ((State.reset.deliver [0x02000001#32, 0x01010203#32]).cmdPort = 0x02000001#32 :: ([0x01010203#32] ++ []) ∧
      1 + [0x01010203#32].length = commandLength 0x02000001#32 ∧
      BitVec.extractLsb' 24 8 0x01010203#32 ≠ 0#8) := by decide

theorem witness_IncompleteCommandHolds :
    State.reset.cmdPort = [] ∧
    ((State.reset.deliver [0x01030001#32]).cmdPort = 0x01030001#32 :: [] ∧
      1 + ([] : List Word).length < commandLength 0x01030001#32) ∧
    ((State.reset.deliver [0x02000002#32, 0#32]).cmdPort = 0x02000002#32 :: [0#32] ∧
      1 + [0#32].length < commandLength 0x02000002#32) := by decide

theorem witness_EveryCommandAnswersOneResponse :
    decode (State.reset.deliver [0x00000000#32]).cmdPort ≠ .incomplete ∧
      ∃ t, step (State.reset.deliver [0x00000000#32]) = .next t := ⟨by decide, exists_next (by decide)⟩

/-- One for each command and each of its results but XMIT_FAIL's, whose answer stands ready. -/
theorem witness_ResultFollowsTheErrorPriority :
    (∃ t, step (oneLed.deliver [0x01030001#32, 0#32]) = .next t) ∧
    (∃ t, step (noLed.deliver [0x02000000#32]) = .next t) ∧
    (∃ t, step (State.deliver [0x03000000#32] { oneLed with txAnswers := [.fail] }) = .next t) ∧
    (∃ t, step (State.reset.deliver [0x03000000#32]) = .next t) ∧
    (∃ t, step (oneLed.deliver [0x04000000#32]) = .next t) :=
  ⟨exists_next (by decide), exists_next (by decide), exists_next (by decide), exists_next (by decide), exists_next (by decide)⟩

/-- Exactly at the capacity, at the lower rate bound and one below it. -/
theorem witness_InitAllocatesAZeroedBuffer :
    12 * (1#16).toNat + 2 * (3#8).toNat ≤ (coldState 18).cfg.bufCapacity ∧
    (false = true ↔ ((2050000#32).toNat < (coldState 18).cfg.rateMinHz ∨
      (coldState 18).cfg.rateMaxHz < (2050000#32).toNat)) ∧
    (true = true ↔ ((2049999#32).toNat < (coldState 18).cfg.rateMinHz ∨
      (coldState 18).cfg.rateMaxHz < (2049999#32).toNat)) := by decide

/-- One byte short, at the upper rate bound and one above it. -/
theorem witness_InitFailsBeyondTheCapacity :
    (coldState 17).cfg.bufCapacity < 12 * (1#16).toNat + 2 * (3#8).toNat ∧
    (false = true ↔ ((4000000#32).toNat < (coldState 17).cfg.rateMinHz ∨
      (coldState 17).cfg.rateMaxHz < (4000000#32).toNat)) ∧
    (true = true ↔ ((4000001#32).toNat < (coldState 17).cfg.rateMinHz ∨
      (coldState 17).cfg.rateMaxHz < (4000001#32).toNat)) := by decide

/-- A success and a failure; also for `InitFrame`. -/
theorem witness_InitAlwaysConfiguresAndChecksTheRate :
    (∃ t, exec (.init 1#16 3#8 0#32) (coldState 18) = .next t ∧ t.result = .ok) ∧
    (∃ t, exec (.init 1#16 3#8 0#32) (coldState 17) = .next t ∧ t.result = .allocFail) :=
  ⟨⟨_, rfl, rfl⟩, ⟨_, rfl, rfl⟩⟩

theorem witness_InitFrame :
    (∃ t, exec (.init 0#16 0#8 0#32) oneLed = .next t ∧ t.result = .ok) ∧
    (∃ t, exec (.init 1#16 3#8 0#32) (readyState 17 0#16 3#8 3000000#32) = .next t ∧ t.result ≠ .ok) :=
  ⟨⟨_, rfl, rfl⟩, ⟨_, rfl, nofun⟩⟩

theorem witness_NotReadyCommandsChangeOnlyResult :
    State.reset.ready = false ∧
      ∃ t, exec (.init 1#16 3#8 0#32) (coldState 17) = .next t ∧ t.result ≠ .ok := ⟨rfl, _, rfl, nofun⟩

/-- One colour too few and one too many. -/
theorem witness_EncodeRefusesAnotherLength :
    oneLed.ready = true ∧ ([] : List Colour).length ≠ oneLed.ledCount.toNat ∧
      [w1, w1].length ≠ oneLed.ledCount.toNat := by decide

/-- The hypotheses of the statements about an ENCODE that is admitted. -/
theorem encode_admitted : BlockInv oneLed ∧ oneLed.ready = true ∧ [w1].length = oneLed.ledCount.toNat :=
  ⟨oneLed_inv, rfl, rfl⟩

theorem oneLed_encodes : exec (.encode [w1]) oneLed = .next (oneLed.encoded [w1]) := execEncode_completes rfl rfl rfl

/-- The first and the last lane. -/
theorem witness_EncodeExpandsEveryLane :
    (BlockInv oneLed ∧ oneLed.ready = true ∧ [w1].length = oneLed.ledCount.toNat) ∧ 0 < [w1].length ∧ 0 < 12 ∧ 11 < 12 :=
  ⟨encode_admitted, by decide, by decide, by decide⟩

theorem witness_EncodeMakesExactlyTheFrame :
    BlockInv oneLed ∧ oneLed.ready = true ∧ [w1].length = oneLed.ledCount.toNat := encode_admitted

/-- An ENCODE that succeeds, with an address it does not store to, and one that fails. -/
theorem witness_EncodeFrame :
    exec (.encode [w1]) oneLed = .next (oneLed.encoded [w1]) ∧
    2 ∉ (encodeStores oneLed.cfg.lut oneLed.latchBytes.toNat [w1]).map Prod.fst ∧
    ∃ t, exec (.encode []) oneLed = .next t ∧ t.result ≠ .ok := ⟨oneLed_encodes, by decide, _, rfl, nofun⟩

theorem witness_EncodeKeepsTheLeadingLatch :
    exec (.encode [w1]) oneLed = .next (oneLed.encoded [w1]) ∧ 0 < oneLed.latchBytes.toNat ∧
      2 < oneLed.latchBytes.toNat ∧ BlockInv oneLed ∧ oneLed.ready = true :=
  ⟨oneLed_encodes, by decide, by decide, oneLed_inv, rfl⟩

theorem witness_EncodeZeroesTheTrailingLatch :
    oneLed.buf.wf = true ∧ exec (.encode [w1]) oneLed = .next (oneLed.encoded [w1]) ∧
      (oneLed.encoded [w1]).result = .ok ∧ 2 < oneLed.latchBytes.toNat ∧ BlockInv oneLed :=
  ⟨rfl, oneLed_encodes, rfl, by decide, oneLed_inv⟩

theorem witness_EncodeStoresExactlyItsRange :
    BlockInv oneLed ∧ oneLed.ready = true ∧ [w1].length = oneLed.ledCount.toNat := encode_admitted

/-- Two histories: one block warned at its INIT and has answered before, the other has not. -/
theorem witness_EncodeForgetsHistory :
    ∃ s s' : State, s ≠ s' ∧ BlockInv s ∧ BlockInv s' ∧ s.cfg.lut = s'.cfg.lut ∧ s.latchBytes = s'.latchBytes ∧
      s.ledCount = s'.ledCount ∧
      exec (.encode [w1]) s = .next (s.encoded [w1]) ∧ exec (.encode [w1]) s' = .next (s'.encoded [w1]) ∧
      (s.encoded [w1]).result = .ok ∧ (s'.encoded [w1]).result = .ok :=
  ⟨oneLed, readyState 100 1#16 3#8 4000000#32, by decide, oneLed_inv, readyState_inv _ _ _ _ (by decide), rfl, rfl, rfl,
    oneLed_encodes, execEncode_completes rfl rfl rfl, rfl, rfl⟩

theorem witness_EncodeOfNoLedsKeepsTheBuffer : BlockInv noLed ∧ noLed.ready = true ∧ noLed.ledCount = 0#16 :=
  ⟨noLed_inv, rfl, rfl⟩

theorem witness_EncodeIsInvertible :
    BlockInv oneLed ∧ oneLed.cfg.lut.valid 2 = true ∧ exec (.encode [w1]) oneLed = .next (oneLed.encoded [w1]) ∧
      (oneLed.encoded [w1]).result = .ok := ⟨oneLed_inv, by decide, oneLed_encodes, rfl⟩

theorem witness_TransmitHandsOverTheWholeBuffer :
    ((State.reset.deliver [0x03800000#32]).cmdPort = 0x03800000#32 :: [] ∧
      BitVec.extractLsb' 24 8 0x03800000#32 = 0x03#8 ∧ BitVec.extractLsb' 0 24 0x03800000#32 ≠ 0#24) ∧
    State.reset.ready = false ∧
    (oneLed.ready = true ∧ State.nextAnswer { oneLed with txAnswers := [.ok] } = .ok ∧
      State.nextAnswer { oneLed with txAnswers := [.fail] } = .fail) := by decide

theorem witness_OnlyTransmitReadsTheAnswer :
    (oneLed.ready = true ∧ State.txAnswers { oneLed with txAnswers := [.fail] } = .fail :: []) ∧
    (Instr.encode [w1] ≠ .transmit ∧ exec (.encode [w1]) oneLed = .next (oneLed.encoded [w1])) ∧
    (Instr.init 0#16 0#8 0#32 ≠ .transmit ∧ ∃ t, exec (.init 0#16 0#8 0#32) oneLed = .next t) :=
  ⟨⟨rfl, rfl⟩, ⟨nofun, oneLed_encodes⟩, nofun, _, rfl⟩

theorem witness_FailedTransmitKeepsTheFrame :
    oneLed.ready = true ∧ State.nextAnswer { oneLed with txAnswers := [.fail] } = .fail ∧
      ∃ t, exec .transmit { oneLed with txAnswers := [.fail] } = .next t := ⟨rfl, rfl, _, rfl⟩

theorem witness_RepeatedTransmitRequestsTheSame : oneLed.ready = true := rfl

theorem witness_TransmitAfterInitSendsZeros :
    ∃ t, exec (.init 1#16 3#8 3000000#32) State.reset = .next t ∧ t.result = .ok := ⟨_, rfl, rfl⟩

theorem witness_EveryStepKeepsTheInvariant :
    BlockInv oneLed ∧ ∃ t, step oneLed = .next t := ⟨oneLed_inv, _, rfl⟩

theorem witness_EveryStepKeepsAWholeFrame :
    BlockInv oneLed ∧ FrameImage oneLed ∧ ∃ t, step (oneLed.deliver [0x03000001#32]) = .next t :=
  ⟨oneLed_inv, fun _ => .inl (Memory.zeros_bytes 18), _, rfl⟩

theorem witness_NoStepStops : BlockInv oneLed := oneLed_inv

theorem witness_NoStepWritesTheParameters : ∃ t, step (oneLed.deliver [0x01030001#32, 0#32]) = .next t := ⟨_, rfl⟩

theorem witness_OnlyInitConfiguresAndWarns :
    (∃ t, step (oneLed.deliver [0x03000001#32]) = .next t) ∧
      ∀ n l f rest, decode (oneLed.deliver [0x03000001#32]).cmdPort ≠ .instr (.init n l f) rest := by
  refine ⟨⟨_, rfl⟩, ?_⟩
  have h : decode (oneLed.deliver [0x03000001#32]).cmdPort = .illegal (.transmitReserved 1#24) [] := by decide
  rw [h]
  intros
  exact nofun

theorem witness_OnlyTransmitMakesRequests :
    ∃ t, step (State.deliver [0x03000000#32] { oneLed with txAnswers := [.ok] }) = .next t := ⟨_, rfl⟩

/-- An error other than ALLOC_FAIL, an ALLOC_FAIL, and an INIT that makes the block ready. -/
theorem witness_ErrorsArePrecise :
    (∃ t, step (State.reset.deliver [0x03000000#32]) = .next t ∧ t.result ≠ .ok ∧ t.result ≠ .allocFail) ∧
    (∃ t, exec (.init 1#16 3#8 0#32) (coldState 17) = .next t ∧ t.result = .allocFail) ∧
    (∃ t, step ((coldState 18).deliver [0x01030001#32, 0#32]) = .next t ∧ (coldState 18).ready = false ∧
      t.ready = true) := ⟨⟨_, rfl, nofun, nofun⟩, ⟨_, rfl, rfl⟩, _, rfl, rfl, rfl⟩

theorem witness_UnspecifiedRegistersAreUnobservable :
    State.reset.ready = false ∧ SameButUnspecified State.reset { State.reset with ledCount := 7#16 } :=
  ⟨rfl, 7#16, 0#8, 0#32, rfl⟩

/-- A table that is refused, and a valid configuration that is not the default. -/
theorem witness_OnlyValidTablesAreBuilt :
    Lut.valid 3 Lut.standard = false ∧
      Config.valid { Config.standard with lut := ⟨0x88#8, 0x8E#8, 0xE8#8, 0xEE#8⟩, bufCapacity := 0 } = true := by decide

theorem witness_ValidTableIsInjective : Lut.valid 2 Lut.standard = true ∧ Lut.standard.sym 1 = Lut.standard.sym 1 := by
  decide

/-- The last pair of a channel. -/
theorem witness_PackedLanesAreTheChannelsPairs : 3 < 4 := by decide

theorem witness_WireCarriesTheColoursBits : Lut.valid 2 Lut.standard = true := by decide

theorem witness_BufferReadsTheLatestWrite :
    Memory.wf ⟨18, [(3, 0xCC#8)]⟩ = true ∧
      Memory.write ⟨18, [(3, 0xCC#8)]⟩ 17 0x88#8 = .ok ⟨18, [(3, 0xCC#8), (17, 0x88#8)]⟩ := ⟨rfl, rfl⟩

/-- The last address inside, the first outside, and a state that breaks the length of R34. -/
theorem witness_OutOfRangeAccessFaults :
    17 < (Memory.zeros 18).len ∧ (Memory.zeros 18).len ≤ 18 ∧
    (State.ready { oneLed with buf := Memory.zeros 17 } = true ∧ [w1].length = oneLed.ledCount.toNat ∧
      (Memory.zeros 17).len < 12 * oneLed.ledCount.toNat + 2 * oneLed.latchBytes.toNat) ∧
    BlockInv oneLed := ⟨by decide, by decide, ⟨rfl, rfl, by decide⟩, oneLed_inv⟩

theorem witness_CanonicalBuffersAreTheirBytes :
    Memory.wf ⟨2, [(1, 0x88#8)]⟩ = true ∧ Memory.bytes ⟨2, [(1, 0x88#8)]⟩ = [0#8, 0x88#8] := by decide

theorem witness_WriteSendsExactlyTheFrame :
    BlockInv oneLed ∧ oneLed.ready = true ∧ oneLed.cmdPort = [] ∧ [w1].length = oneLed.ledCount.toNat :=
  ⟨oneLed_inv, rfl, rfl, rfl⟩

theorem witness_WriteStopsAtAFailedEncode :
    ([w1].length < 2 ^ 24 ∧ State.reset.cmdPort = [] ∧ State.reset.ready = false) ∧
    (oneLed.cmdPort = [] ∧ oneLed.ready = true ∧ ([] : List Colour).length ≠ oneLed.ledCount.toNat) := by decide

end Sys2Proof.Tests
end

section
/-! The parameters of spec/00_scope.md R6 are a frame of every step: no command, refusal or hold writes `cfg`. -/

namespace Sys2Proof.Machine

@[simp] theorem State.encoded_cfg (cs : List Colour) (s : State) : (s.encoded cs).cfg = s.cfg := rfl

@[simp] theorem State.refuseIllegal_cfg (rest : List Word) (s : State) : (s.refuseIllegal rest).cfg = s.cfg := rfl

theorem execInit_cfg {n : BitVec 16} {l : BitVec 8} {f : BitVec 32} {s t : State}
    (h : execInit n l f s = .next t) : t.cfg = s.cfg := by
  rcases execInit_cases n l f s with ⟨-, succeeds⟩ | ⟨-, fails⟩
  · cases succeeds.symm.trans h
    simp
  · cases fails.symm.trans h
    simp

theorem execEncode_cfg {cs : List Colour} {s t : State} (h : execEncode cs s = .next t) : t.cfg = s.cfg := by
  rcases execEncode_cases cs s with
    ⟨-, notReady⟩ | ⟨-, -, mismatch⟩ | ⟨-, -, -, encodes⟩ | ⟨-, -, _, -, -, faults⟩
  · cases notReady.symm.trans h
    simp
  · cases mismatch.symm.trans h
    simp
  · cases encodes.symm.trans h
    simp
  · cases faults.symm.trans h

theorem execTransmit_cfg {s t : State} (h : execTransmit s = .next t) : t.cfg = s.cfg := by
  rcases execTransmit_cases s with ⟨-, notReady⟩ | ⟨-, requests⟩
  · cases notReady.symm.trans h
    simp
  · cases requests.symm.trans h
    simp

/-- No command writes the parameters (R7). -/
theorem exec_cfg {i : Instr} {s t : State} (h : exec i s = .next t) : t.cfg = s.cfg := by
  cases i with
  | init n l f => exact execInit_cfg h
  | encode cs => exact execEncode_cfg h
  | transmit => exact execTransmit_cfg h

/-- Settles O37: a step runs a command, which keeps the parameters (`exec_cfg`), or refuses one, or holds. -/
theorem noStepWritesTheParameters : Obligations.NoStepWritesTheParameters := by
  intro s t h
  rcases step_cases s with ⟨i, rest, -, runs⟩ | ⟨_, rest, -, refuses⟩ | ⟨-, holds⟩
  · calc
      t.cfg = (s.takeCommand rest).cfg := exec_cfg (runs.symm.trans h)
      _ = s.cfg := s.takeCommand_cfg rest
  · cases refuses.symm.trans h
    simp
  · cases holds.symm.trans h
    rfl

end Sys2Proof.Machine
end

section
/-! What a step that answers can have done, as one relation with a named case for each effect. The state invariants and
the safety statements are case splits over it. -/

namespace Sys2Proof.Machine

/-- The effects a step from `s` can have, each with its guard and the state it answers. -/
inductive StepEffect (s : State) : State → Prop where
  /-- No complete command stands on the port (R89). -/
  | held (port : decode s.cmdPort = .incomplete) : StepEffect s s
  /-- A complete illegal command (R204). -/
  | illegal {why : Illegal} {rest : List Word} (port : decode s.cmdPort = .illegal why rest) :
      StepEffect s (s.refuseIllegal rest)
  /-- An ENCODE or a TRANSMIT while `READY = 0` (R201). -/
  | notReady {i : Instr} {rest : List Word} (port : decode s.cmdPort = .instr i rest)
      (noInit : ∀ n l f, i ≠ .init n l f) (notReady : s.ready = false) :
      StepEffect s ((s.takeCommand rest).raise .notReady)
  /-- An ENCODE of another length than the configured one (R205). -/
  | mismatched {cs : List Colour} {rest : List Word} (port : decode s.cmdPort = .instr (.encode cs) rest)
      (ready : s.ready = true) (length : cs.length ≠ s.ledCount.toNat) :
      StepEffect s ((s.takeCommand rest).raise .lenMismatch)
  /-- An INIT within the capacity (R135). -/
  | configured {n : BitVec 16} {l : BitVec 8} {f : BitVec 32} {rest : List Word}
      (port : decode s.cmdPort = .instr (.init n l f) rest)
      (fits : bufferSize n.toNat l.toNat ≤ s.cfg.bufCapacity) :
      StepEffect s (((((s.takeCommand rest).configure n l f).rateCheck f).allocate
        (bufferSize n.toNat l.toNat)).complete .ok)
  /-- An INIT beyond the capacity (R136). -/
  | discarded {n : BitVec 16} {l : BitVec 8} {f : BitVec 32} {rest : List Word}
      (port : decode s.cmdPort = .instr (.init n l f) rest)
      (tooLarge : s.cfg.bufCapacity < bufferSize n.toNat l.toNat) :
      StepEffect s ((((s.takeCommand rest).configure n l f).rateCheck f).discard.raise .allocFail)
  /-- An ENCODE of the configured length on a ready block (R140). -/
  | encoded {cs : List Colour} {rest : List Word} (port : decode s.cmdPort = .instr (.encode cs) rest)
      (ready : s.ready = true) (length : cs.length = s.ledCount.toNat)
      (inRange : ∀ w ∈ encodeStores s.cfg.lut s.latchBytes.toNat cs, w.1 < s.buf.len) :
      StepEffect s ((s.takeCommand rest).encoded cs)
  /-- A TRANSMIT on a ready block, whatever the transport answers (R180). -/
  | requested {rest : List Word} (port : decode s.cmdPort = .instr .transmit rest)
      (ready : s.ready = true) :
      StepEffect s ((s.takeCommand rest).requestTx.complete (answerResult s.nextAnswer))

/-- The effect of a command that has been taken off the port. -/
theorem stepEffect_of_exec {s t : State} {i : Instr} {rest : List Word} (port : decode s.cmdPort = .instr i rest)
    (h : exec i (s.takeCommand rest) = .next t) : StepEffect s t := by
  cases i with
  | init n l f =>
    rcases execInit_cases n l f (s.takeCommand rest) with ⟨fits, succeeds⟩ | ⟨tooLarge, fails⟩
    · cases succeeds.symm.trans h
      exact .configured port fits
    · cases fails.symm.trans h
      exact .discarded port tooLarge
  | encode cs =>
    rcases execEncode_cases cs (s.takeCommand rest) with
      ⟨notReady, refuses⟩ | ⟨ready, length, refuses⟩ | ⟨ready, length, inRange, encodes⟩ | ⟨-, -, _, -, -, faults⟩
    · cases refuses.symm.trans h
      exact .notReady port nofun notReady
    · cases refuses.symm.trans h
      exact .mismatched port ready length
    · cases encodes.symm.trans h
      exact .encoded port ready length inRange
    · cases faults.symm.trans h
  | transmit =>
    rcases execTransmit_cases (s.takeCommand rest) with ⟨notReady, refuses⟩ | ⟨ready, requests⟩
    · cases refuses.symm.trans h
      exact .notReady port nofun notReady
    · cases requests.symm.trans h
      exact .requested port ready

/-- A step that answers a next state has one of the effects. -/
theorem stepEffect_of_step {s t : State} (h : step s = .next t) : StepEffect s t := by
  rcases step_cases s with ⟨i, rest, port, runs⟩ | ⟨_, rest, port, refuses⟩ | ⟨port, holds⟩
  · exact stepEffect_of_exec port (runs.symm.trans h)
  · cases refuses.symm.trans h
    exact .illegal port
  · cases holds.symm.trans h
    exact .held port

end Sys2Proof.Machine
end

section
/-! The invariant of the block (R34, R233, R25): it holds at reset, and every step keeps it. -/

namespace Sys2Proof.Machine

/-- The invariant speaks neither of `RESULT` nor of the ports. -/
theorem BlockInv.set_ports {s : State} (h : BlockInv s) (r : Result) (port : List Word) (answers : List TxAnswer)
    (draws : Nat) (outs : List Output) :
    BlockInv { s with result := r, cmdPort := port, txAnswers := answers, txDraws := draws, outputs := outs } :=
  ⟨h.bufCanonical, h.readyLength, h.notReadyEmpty, h.latchZero, h.warnFollowsRate⟩

theorem BlockInv.complete {s : State} (h : BlockInv s) (r : Result) : BlockInv (s.complete r) := h.set_ports ..

theorem BlockInv.takeCommand {s : State} (h : BlockInv s) (rest : List Word) : BlockInv (s.takeCommand rest) :=
  h.set_ports ..

theorem BlockInv.requestTx {s : State} (h : BlockInv s) : BlockInv s.requestTx := h.set_ports ..

/-- While `READY = 0` the invariant asks for the empty buffer alone. -/
theorem blockInv_of_not_ready {s : State} (notReady : s.ready = false) (empty : s.buf = Memory.empty) : BlockInv s where
  bufCanonical := by simp [empty]
  readyLength := by simp [notReady]
  notReadyEmpty := by simp [empty]
  latchZero := by simp [notReady]
  warnFollowsRate := by simp [notReady]

/-- Right after an INIT has allocated, whatever stood in the block before it. -/
theorem blockInv_allocate (s : State) (n : BitVec 16) (l : BitVec 8) (f : BitVec 32) :
    BlockInv (((s.configure n l f).rateCheck f).allocate (bufferSize n.toNat l.toNat)) where
  bufCanonical := Memory.zeros_wf _
  readyLength := fun _ => rfl
  notReadyEmpty := nofun
  latchZero := fun _ _ inRange _ => Memory.read_eq_ok.mpr ⟨inRange, lookupCell_zeros _ _⟩
  warnFollowsRate := fun _ => rateOutOfRange_iff s.cfg f

/-- ENCODE leaves zero in both latch regions where the buffer was zero there (R143, R144): it stores nothing in the
leading one and zeros in the trailing one. -/
theorem encodedBuffer_latch {t : Lut} {l : Nat} {cs : List Colour} {m : Memory} (canonical : m.wf = true)
    (length : m.len = 12 * cs.length + 2 * l) {a : Nat} (inRange : a < m.len) (latch : a < l ∨ l + 12 * cs.length ≤ a)
    (zero : lookupCell m.cells a = 0#8) : lookupCell (encodedBuffer t l cs m).cells a = 0#8 := by
  rcases latch with leading | trailing
  · have untouched : ∀ w ∈ encodeStores t l cs, w.1 ≠ a := fun w hw => by
      have := encodeStores_range hw
      omega
    rw [encodedBuffer_other t l cs m untouched, zero]
  · obtain ⟨j, rfl⟩ := Nat.exists_eq_add_of_le trailing
    exact encodedBuffer_trailing canonical length (by omega)

/-- A whole ENCODE keeps the invariant. -/
theorem BlockInv.encoded {s : State} (h : BlockInv s) (ready : s.ready = true) {cs : List Colour}
    (length : cs.length = s.ledCount.toNat) : BlockInv (s.encoded cs) := by
  have bufLength : s.buf.len = 12 * cs.length + 2 * s.latchBytes.toNat := length ▸ h.readyLength ready
  refine ⟨encodedBuffer_wf h.bufCanonical bufLength, h.readyLength, h.notReadyEmpty, ?_, h.warnFollowsRate⟩
  intro _ a inRange latch
  have zero := (Memory.read_eq_ok.mp (h.latchZero ready a inRange latch)).2
  exact Memory.read_eq_ok.mpr
    ⟨inRange, encodedBuffer_latch h.bufCanonical bufLength inRange (length ▸ latch) zero⟩

/-- Every effect of a step keeps the invariant. -/
theorem StepEffect.keeps_blockInv {s t : State} (effect : StepEffect s t) (h : BlockInv s) : BlockInv t := by
  cases effect with
  | held => exact h
  | illegal | notReady | mismatched => exact (h.takeCommand _).complete _
  | configured => exact (blockInv_allocate ..).complete _
  | discarded => exact blockInv_of_not_ready rfl rfl
  | @encoded cs rest _ ready length => exact (h.takeCommand rest).encoded ready length
  | requested => exact (h.takeCommand _).requestTx.complete _

/-- Settles O34, by a split over the effects of a step. -/
theorem everyStepKeepsTheInvariant : Obligations.EveryStepKeepsTheInvariant :=
  fun _ _ h answers => (stepEffect_of_step answers).keeps_blockInv h

/-- Settles O33: at reset the block is not ready and its buffer is empty. -/
theorem invariantHoldsAtReset : Obligations.InvariantHoldsAtReset := blockInv_of_not_ready rfl rfl

/-- Settles O32: the reset state is a literal, and each value is read off it. -/
theorem resetState : Obligations.ResetState := ⟨rfl, rfl, rfl, rfl, rfl⟩

end Sys2Proof.Machine
end

section
/-! What the commands other than INIT leave unchanged, and where requests come from (R21 to R25, R37, R182). -/

namespace Sys2Proof.Machine

/-- RateCheck makes no transmit request. -/
@[simp] theorem tx_notMem_rateEvents (c : Config) (f : BitVec 32) (req : TxRequest) : .tx req ∉ rateEvents c f := by
  rcases rateEvents_cases c f with ⟨-, warns⟩ | ⟨-, silent⟩
  · simp [warns]
  · simp [silent]

/-- Settles O38: of the effects of a step only INIT's two write these registers or warn. -/
theorem onlyInitConfiguresAndWarns : Obligations.OnlyInitConfiguresAndWarns := by
  intro s t answers noInit
  cases stepEffect_of_step answers with
  | held => exact ⟨rfl, rfl, rfl, rfl, rfl, [], by simp, by simp⟩
  | illegal | notReady | mismatched | encoded => exact ⟨rfl, rfl, rfl, rfl, rfl, [.response _], rfl, by simp⟩
  | configured port => exact absurd port (noInit _ _ _ _)
  | discarded port => exact absurd port (noInit _ _ _ _)
  | requested => exact ⟨rfl, rfl, rfl, rfl, rfl, [.tx _, .response _], List.append_assoc .., by simp⟩

/-- Settles O39: of the effects of a step only a TRANSMIT on a ready block puts out a request. -/
theorem onlyTransmitMakesRequests : Obligations.OnlyTransmitMakesRequests := by
  intro s t answers
  cases stepEffect_of_step answers with
  | held => exact ⟨[], by simp, by simp⟩
  | illegal | notReady | mismatched | encoded => exact ⟨[.response _], rfl, by simp⟩
  | @configured _ _ f =>
    exact ⟨rateEvents s.cfg f ++ [.response (responseWord .ok true (rateOutOfRange s.cfg f))], by simp, by simp⟩
  | @discarded _ _ f =>
    exact ⟨rateEvents s.cfg f ++ [.response (responseWord .allocFail false (rateOutOfRange s.cfg f))], by simp,
      by simp⟩
  | requested port ready =>
    refine ⟨[.tx ⟨s.buf.bytes, s.buf.len, s.rateHz⟩, .response _], List.append_assoc .., fun req added => ?_⟩
    obtain rfl : req = ⟨s.buf.bytes, s.buf.len, s.rateHz⟩ := by simpa using added
    exact ⟨⟨_, port⟩, ready, rfl, _, rfl⟩

end Sys2Proof.Machine
end

section
/-! While the block is not ready nothing depends on `LED_COUNT`, `LATCH_BYTES` or `RATE_HZ` (R36): INIT overwrites all
three before it reads one, and the other commands are refused before they read one. -/

namespace Sys2Proof.Machine

theorem SameButUnspecified.refl (s : State) : SameButUnspecified s s := ⟨_, _, _, rfl⟩

theorem SameButUnspecified.ready_eq {s t : State} (same : SameButUnspecified s t) : t.ready = s.ready := by
  obtain ⟨_, _, _, rfl⟩ := same
  rfl

theorem SameButUnspecified.outputs_eq {s t : State} (same : SameButUnspecified s t) : s.outputs = t.outputs := by
  obtain ⟨_, _, _, rfl⟩ := same
  rfl

/-- An error reads none of the three registers and writes none. -/
theorem SameButUnspecified.raise {s t : State} (same : SameButUnspecified s t) (r : Result) :
    SameButUnspecified (s.raise r) (t.raise r) := by
  obtain ⟨n, l, f, rfl⟩ := same
  exact ⟨n, l, f, rfl⟩

/-- INIT overwrites the three registers before it reads one. -/
theorem SameButUnspecified.execInit_eq {s t : State} (same : SameButUnspecified s t) (n : BitVec 16) (l : BitVec 8)
    (f : BitVec 32) : execInit n l f t = execInit n l f s := by
  obtain ⟨_, _, _, rfl⟩ := same
  rfl

/-- INIT always answers a next state. -/
theorem execInit_answers (n : BitVec 16) (l : BitVec 8) (f : BitVec 32) (s : State) :
    ∃ t, execInit n l f s = .next t := by
  rcases execInit_cases n l f s with ⟨-, succeeds⟩ | ⟨-, fails⟩
  · exact ⟨_, succeeds⟩
  · exact ⟨_, fails⟩

/-- A block that is not ready refuses every command but INIT with NOT_READY (R201). -/
theorem exec_of_not_ready {i : Instr} {s : State} (notReady : s.ready = false) (noInit : ∀ n l f, i ≠ .init n l f) :
    exec i s = .next (s.raise .notReady) := by
  cases i with
  | init n l f => exact absurd rfl (noInit n l f)
  | encode cs =>
    rcases execEncode_cases cs s with ⟨-, refuses⟩ | ⟨ready, -⟩ | ⟨ready, -⟩ | ⟨ready, -⟩
    · exact refuses
    all_goals exact absurd ready (by simp [notReady])
  | transmit =>
    rcases execTransmit_cases s with ⟨-, refuses⟩ | ⟨ready, -⟩
    · exact refuses
    · exact absurd ready (by simp [notReady])

/-- Settles O41: an INIT does the same on both states, and any other command raises NOT_READY on both. -/
theorem unspecifiedRegistersAreUnobservable : Obligations.UnspecifiedRegistersAreUnobservable := by
  intro s t i notReady same
  by_cases isInit : ∃ n l f, i = .init n l f
  · obtain ⟨n, l, f, rfl⟩ := isInit
    obtain ⟨s', answers⟩ := execInit_answers n l f s
    exact ⟨s', s', answers, (same.execInit_eq n l f).trans answers, .refl s', rfl, fun _ => rfl⟩
  · have noInit : ∀ n l f, i ≠ .init n l f := fun n l f h => isInit ⟨n, l, f, h⟩
    have notReady' : t.ready = false := same.ready_eq.trans notReady
    exact ⟨_, _, exec_of_not_ready notReady noInit, exec_of_not_ready notReady' noInit, same.raise _,
      (same.raise _).outputs_eq, fun h => absurd h isInit⟩

end Sys2Proof.Machine
end

section
/-! Accesses to the buffer (R52, R58, R64), and the canonical form as the model's equality of buffers. -/

namespace Sys2Proof.Machine

/-- An address at or above `len(BUF)` does not exist (R52). -/
theorem Memory.read_of_ge {m : Memory} {a : Nat} (outside : m.len ≤ a) : m.read a = .error (.bufferOutOfRange a) := by
  simp [Memory.read, outside]

/-- A read depends on the length and on the byte listed for its own address alone. -/
theorem Memory.read_congr {m m' : Memory} {a : Nat} (length : m'.len = m.len)
    (cell : lookupCell m'.cells a = lookupCell m.cells a) : m'.read a = m.read a := by
  simp [Memory.read, length, cell]

/-- Settles O47: a write that succeeds is one `putCell` on a canonical list. -/
theorem bufferReadsTheLatestWrite : Obligations.BufferReadsTheLatestWrite := by
  intro m m' a v canonical writes
  obtain ⟨inRange, rfl⟩ := Memory.write_eq_ok.mp writes
  refine ⟨putCell_wf canonical v (Nat.zero_le a) inRange, rfl, ?_, fun b other => ?_⟩
  · exact Memory.read_eq_ok.mpr ⟨inRange, lookupCell_putCell_self canonical a v⟩
  · exact Memory.read_congr rfl (lookupCell_putCell_ne m.cells v other)

/-- Settles O49: equal byte sequences have the same length and list the same byte for every address below it, and a
canonical buffer lists nothing above it. -/
theorem canonicalBuffersAreTheirBytes : Obligations.CanonicalBuffersAreTheirBytes := by
  rintro ⟨len, cells⟩ ⟨len', cells'⟩ canonical canonical' sameBytes
  obtain rfl : len = len' := by simpa using congrArg List.length sameBytes
  have sameCells : ∀ a, lookupCell cells a = lookupCell cells' a := by
    intro a
    by_cases inRange : a < len
    · have sameByte := List.getElem_of_eq sameBytes (i := a) (by simpa using inRange)
      rwa [Memory.bytes_getElem, Memory.bytes_getElem] at sameByte
    · rw [lookupCell_of_ge canonical (by simpa using inRange), lookupCell_of_ge canonical' (by simpa using inRange)]
  exact congrArg _ (cells_ext canonical canonical' sameCells)

end Sys2Proof.Machine
end

section
/-! Which commands stop: an ENCODE on a buffer too short for its frame does (R52), and under the invariant no command
does (R145). -/

namespace Sys2Proof.Machine

/-- An admitted ENCODE on a buffer shorter than its frame faults, since it stores to the last address of the frame. -/
theorem execEncode_faults_of_short {cs : List Colour} {s : State} (ready : s.ready = true)
    (length : cs.length = s.ledCount.toNat)
    (short : s.buf.len < 12 * s.ledCount.toNat + 2 * s.latchBytes.toNat) :
    ∃ a, execEncode cs s = .fault (.bufferOutOfRange a) := by
  rcases execEncode_cases cs s with ⟨notReady, -⟩ | ⟨-, mismatch, -⟩ | ⟨-, -, inRange, -⟩ | ⟨-, -, w, -, -, faults⟩
  · exact absurd ready (by simp [notReady])
  · exact absurd length mismatch
  · obtain ⟨v, stored⟩ : ∃ v, (2 * s.latchBytes.toNat + 12 * cs.length - 1, v) ∈
        encodeStores s.cfg.lut s.latchBytes.toNat cs := encodeStores_addresses (by omega) (by omega)
    have lastInRange : 2 * s.latchBytes.toNat + 12 * cs.length - 1 < s.buf.len := inRange _ stored
    omega
  · exact ⟨w.1, faults⟩

/-- Under the invariant an ENCODE is refused with an error or has its whole effect. -/
theorem BlockInv.execEncode_safe {s : State} (h : BlockInv s) (cs : List Colour) : Safe (execEncode cs s) := by
  rcases execEncode_cases cs s with ⟨-, refuses⟩ | ⟨-, -, refuses⟩ | ⟨-, -, -, encodes⟩ | ⟨ready, length, -⟩
  · exact ⟨_, refuses⟩
  · exact ⟨_, refuses⟩
  · exact ⟨_, encodes⟩
  · exact ⟨_, execEncode_completes ready length (h.readyLength ready)⟩

/-- TRANSMIT always answers a next state. -/
theorem execTransmit_answers (s : State) : ∃ t, execTransmit s = .next t := by
  rcases execTransmit_cases s with ⟨-, refuses⟩ | ⟨-, requests⟩
  · exact ⟨_, refuses⟩
  · exact ⟨_, requests⟩

/-- Under the invariant every command answers a next state. -/
theorem BlockInv.exec_safe {s : State} (h : BlockInv s) (i : Instr) : Safe (exec i s) := by
  cases i with
  | init n l f => exact execInit_answers n l f s
  | encode cs => exact h.execEncode_safe cs
  | transmit => exact execTransmit_answers s

/-- Settles O48: the accesses by the comparison with `len(BUF)`, the ENCODE on a short buffer by
`execEncode_faults_of_short`, the ENCODE under the invariant by `BlockInv.execEncode_safe`. -/
theorem outOfRangeAccessFaults : Obligations.OutOfRangeAccessFaults := by
  refine ⟨fun m a v inside => ?_, fun m a v outside => ?_, fun s cs => execEncode_faults_of_short,
    fun s cs h => h.execEncode_safe cs⟩
  · exact ⟨⟨_, Memory.read_of_lt inside⟩, _, Memory.write_eq_ok.mpr ⟨inside, rfl⟩⟩
  · rcases m.write_cases a v with ⟨inside, -⟩ | ⟨-, faults⟩
    · omega
    · exact ⟨Memory.read_of_ge outside, faults⟩

/-- Settles O36: a step runs a command on a state that still meets the invariant, or refuses one, or holds. -/
theorem noStepStops : Obligations.NoStepStops := by
  intro s h
  rcases step_cases s with ⟨i, rest, -, runs⟩ | ⟨_, rest, -, refuses⟩ | ⟨-, holds⟩
  · exact runs ▸ (h.takeCommand rest).exec_safe i
  · exact ⟨_, refuses⟩
  · exact ⟨_, holds⟩

/-- Settles O5: of the three things a step can do, decoded words leave only running the command. -/
theorem stepRunsTheDecodedCommand : Obligations.StepRunsTheDecodedCommand := by
  intro s i rest port
  rcases step_cases s with ⟨_, _, port', runs⟩ | ⟨_, _, illegal, -⟩ | ⟨incomplete, -⟩
  · cases port.symm.trans port'
    exact runs
  · cases port.symm.trans illegal
  · cases port.symm.trans incomplete

end Sys2Proof.Machine
end

section
/-! The wire view of the colour region (R55 to R57): a symbol byte of a valid table carries its bit pair (R115), and the
pairs of a colour's lanes, the highest lane first, are its logical bits. -/

namespace Sys2Proof

/-- A valid table's entries decode to their indices (R115). -/
theorem Lut.decodeByte_sym {thr : Nat} {t : Lut} (valid : t.valid thr = true) (p : BitVec 2) :
    decodeByte thr (t.sym p) = some p := by
  simp only [Lut.valid, Bool.and_eq_true, decide_eq_true_eq] at valid
  obtain ⟨⟨⟨entry0, entry1⟩, entry2⟩, entry3⟩ := valid
  have index : p = 0b00#2 ∨ p = 0b01#2 ∨ p = 0b10#2 ∨ p = 0b11#2 := by
    revert p
    decide
  rcases index with rfl | rfl | rfl | rfl
  · exact entry0
  · exact entry1
  · exact entry2
  · exact entry3

/-- Where a byte decodes, both its nibbles do, the high one giving the more significant bit (R112). -/
theorem decodeByte_eq_some {thr : Nat} {b : Byte} {p : BitVec 2} (h : decodeByte thr b = some p) :
    decodeNibble thr (b.extractLsb' 4 4) = some (p.getLsbD 1) ∧
      decodeNibble thr (b.extractLsb' 0 4) = some (p.getLsbD 0) := by
  unfold decodeByte at h
  split at h
  · next hi lo hiDecodes loDecodes =>
    obtain rfl := Option.some.inj h
    rw [hiDecodes, loDecodes]
    cases hi <;> cases lo <;> exact ⟨rfl, rfl⟩
  · cases h

/-- Four cells are the nibble whose bits they are, bit 3 first (R56). -/
theorem cellsNibble_getLsbD (x : BitVec 4) :
    cellsNibble (x.getLsbD 3) (x.getLsbD 2) (x.getLsbD 1) (x.getLsbD 0) = x := by
  revert x
  decide

/-- The two logical bits of a lane, the more significant one first (R112). -/
def pairBits (p : BitVec 2) : List Bool := [p.getLsbD 1, p.getLsbD 0]

/-- The cells of a byte that decodes carry its bit pair. -/
theorem decodeCells_byteCells_append {thr : Nat} {b : Byte} {p : BitVec 2} (decodes : decodeByte thr b = some p)
    {cells : List Bool} {bits : List Bool} (rest : decodeCells thr cells = some bits) :
    decodeCells thr (byteCells b ++ cells) = some (pairBits p ++ bits) := by
  obtain ⟨high, low⟩ := decodeByte_eq_some decodes
  have highNibble : cellsNibble (b.getLsbD 7) (b.getLsbD 6) (b.getLsbD 5) (b.getLsbD 4) = b.extractLsb' 4 4 := by
    simpa using cellsNibble_getLsbD (b.extractLsb' 4 4)
  have lowNibble : cellsNibble (b.getLsbD 3) (b.getLsbD 2) (b.getLsbD 1) (b.getLsbD 0) = b.extractLsb' 0 4 := by
    simpa using cellsNibble_getLsbD (b.extractLsb' 0 4)
  have cellsOfByte : byteCells b ++ cells = b.getLsbD 7 :: b.getLsbD 6 :: b.getLsbD 5 :: b.getLsbD 4 ::
      b.getLsbD 3 :: b.getLsbD 2 :: b.getLsbD 1 :: b.getLsbD 0 :: cells := rfl
  simp only [cellsOfByte, decodeCells, highNibble, lowNibble, high, low, rest]
  rfl

/-- Under a valid table the cells of looked-up lanes carry the lanes' bit pairs. -/
theorem decodeCells_wireCells_map_sym {thr : Nat} {t : Lut} (valid : t.valid thr = true) (ps : List (BitVec 2)) :
    decodeCells thr (wireCells (ps.map t.sym)) = some (ps.flatMap pairBits) := by
  induction ps with
  | nil => rfl
  | cons p ps ih => exact decodeCells_byteCells_append (t.decodeByte_sym valid p) ih

@[simp] theorem byteCells_length (b : Byte) : (byteCells b).length = 8 := rfl

@[simp] theorem wireCells_length (bytes : List Byte) : (wireCells bytes).length = 8 * bytes.length := by
  induction bytes with
  | nil => rfl
  | cons b bytes ih =>
    calc
      (wireCells (b :: bytes)).length = (byteCells b).length + (wireCells bytes).length := List.length_append
      _ = 8 * (b :: bytes).length := by simp [ih]; omega

/-- The lanes of a colour in the order of its symbol bytes: lane 11 first (R142). -/
def Colour.lanes (c : Colour) : List (BitVec 2) := (List.range bytesPerLed).map fun j => lane c.packed (11 - j)

theorem symbolBytes_eq_map_lanes (t : Lut) : symbolBytes t = fun c => c.lanes.map t.sym := by
  funext c
  simp [symbolBytes, Colour.lanes]

/-- Lane `k` holds the bits `2k+1` and `2k` of the packed value (R81). -/
theorem pairBits_lane (v : BitVec 24) (k : Nat) :
    pairBits (lane v k) = [v.getLsbD (2 * k + 1), v.getLsbD (2 * k)] := by
  rw [pairBits, lane_getLsbD v k 1 (by decide), lane_getLsbD v k 0 (by decide)]
  rfl

/-- The bit pairs of a colour's lanes, the highest lane first, are its bits in wire order (R57, R80, R81). -/
theorem flatMap_pairBits_lanes (c : Colour) : c.lanes.flatMap pairBits = c.logicalBits := by
  calc
    c.lanes.flatMap pairBits =
        (List.range 12).flatMap fun j =>
          [c.packed.getLsbD (2 * (11 - j) + 1), c.packed.getLsbD (2 * (11 - j))] := by
      simp only [Colour.lanes, bytesPerLed, List.flatMap_map, pairBits_lane]
    _ = c.logicalBits := by
      simp only [packed_getLsbD]
      rfl

/-- Settles O46: the colour region is the looked-up lanes of all colours, whose bit pairs are the logical bits. -/
theorem wireCarriesTheColoursBits : Obligations.WireCarriesTheColoursBits := by
  intro thr t cs valid
  have region : cs.flatMap (symbolBytes t) = (cs.flatMap Colour.lanes).map t.sym := by
    rw [symbolBytes_eq_map_lanes, List.map_flatMap]
  constructor
  · rw [region, decodeCells_wireCells_map_sym valid, List.flatMap_assoc]
    simp [flatMap_pairBits_lanes]
  · simp
    omega

end Sys2Proof
end

section
/-! The decoder, one opcode at a time (R85 to R91, R93): the length rule, what each opcode makes of a complete command,
and which words make a command. Encoding and decoding are then inverse to each other. -/

namespace Sys2Proof

/-- A header whose opcode no command of R91 has. -/
def Unassigned (h : Word) : Prop := opcodeOf h ≠ 0x01#8 ∧ opcodeOf h ≠ 0x02#8 ∧ opcodeOf h ≠ 0x03#8

/-- R93's three illegal forms, of a header and the words its length rule asks for. -/
def IllegalForm (h : Word) (ops : List Word) : Prop :=
  Unassigned h ∨ (opcodeOf h = 0x03#8 ∧ headerField h ≠ 0#24) ∨
    (opcodeOf h = 0x02#8 ∧ ∃ w ∈ ops, w.extractLsb' 24 8 ≠ 0#8)

theorem opcode_cases (h : Word) :
    opcodeOf h = 0x01#8 ∨ opcodeOf h = 0x02#8 ∨ opcodeOf h = 0x03#8 ∨ Unassigned h := by
  unfold Unassigned
  tauto

/-! The length rule (R89). -/

theorem commandLength_init {h : Word} (op : opcodeOf h = 0x01#8) : commandLength h = 2 := by
  simp [commandLength, op]

theorem commandLength_encode {h : Word} (op : opcodeOf h = 0x02#8) :
    commandLength h = 1 + (headerField h).toNat := by
  simp [commandLength, op]

theorem commandLength_transmit {h : Word} (op : opcodeOf h = 0x03#8) : commandLength h = 1 := by
  simp [commandLength, op]

theorem commandLength_unassigned {h : Word} (op : Unassigned h) : commandLength h = 1 := by
  obtain ⟨noInit, noEncode, -⟩ := op
  simp [commandLength, noInit, noEncode]

/-- A complete command of length 1 has no operand words. -/
theorem operands_eq_nil {h : Word} {ops : List Word} (complete : 1 + ops.length = commandLength h)
    (single : commandLength h = 1) : ops = [] := List.length_eq_zero_iff.mp (by omega)

theorem decode_of_unassigned {h : Word} (op : Unassigned h) (ws : List Word) :
    decode (h :: ws) = .illegal (.unassignedOpcode (opcodeOf h)) ws := by
  obtain ⟨noInit, noEncode, noTransmit⟩ := op
  exact decode_unassigned noInit noEncode noTransmit ws

/-! A complete ENCODE, and the words that make one. -/

/-- An ENCODE with its `M` colour words, all legal (R87). -/
theorem decode_encode_legal {h : Word} (op : opcodeOf h = 0x02#8) {ops : List Word}
    (count : ops.length = (headerField h).toNat) {cs : List Colour} (colours : decodeColours ops = some cs)
    (rest : List Word) : decode (h :: (ops ++ rest)) = .instr (.encode cs) rest := by
  simp [decode_encode op, ← count, colours]

/-- An ENCODE with its `M` colour words, one of them illegal (R93). -/
theorem decode_encode_reserved {h : Word} (op : opcodeOf h = 0x02#8) {ops : List Word}
    (count : ops.length = (headerField h).toNat) (reserved : decodeColours ops = none) (rest : List Word) :
    decode (h :: (ops ++ rest)) = .illegal .colourReserved rest := by
  simp [decode_encode op, ← count, reserved]

/-- A legal ENCODE is read from as many colour words as its header counts, and each is its colour's word. -/
theorem words_of_decode_encode {h : Word} (op : opcodeOf h = 0x02#8) {ws rest : List Word} {i : Instr}
    (decodes : decode (h :: ws) = .instr i rest) :
    ∃ cs, i = .encode cs ∧ cs.length = (headerField h).toNat ∧ ws = cs.map encodeColour ++ rest := by
  rw [decode_encode op] at decodes
  cases split : splitWords (headerField h).toNat ws with
  | none => simp [split] at decodes
  | some parts =>
    obtain ⟨ops, rest'⟩ := parts
    obtain ⟨count, rfl⟩ := splitWords_eq_some split
    cases colours : decodeColours ops with
    | none => simp [split, colours] at decodes
    | some cs =>
      obtain ⟨rfl, rfl⟩ : .encode cs = i ∧ rest' = rest := by simpa [split, colours] using decodes
      obtain rfl := map_of_decodeColours colours
      exact ⟨cs, rfl, by simpa using count, rfl⟩

/-! Encoding, then decoding: one lemma for each command. -/

theorem decode_initWords (n : BitVec 16) (l : BitVec 8) (f : BitVec 32) (rest : List Word) :
    decode (encode (.init n l f) ++ rest) = .instr (.init n l f) rest := by
  have op : opcodeOf (0x01#8 ++ l ++ n) = 0x01#8 := opcodeOf_initHeader ..
  refine (decode_init op (f :: rest)).trans ?_
  simp only [countField_initHeader, latchField_initHeader]

theorem decode_encodeWords {cs : List Colour} (fits : cs.length < colourCountBound) (rest : List Word) :
    decode (encode (.encode cs) ++ rest) = .instr (.encode cs) rest := by
  have op : opcodeOf (0x02#8 ++ BitVec.ofNat 24 cs.length) = 0x02#8 := opcodeOf_header ..
  have count : (cs.map encodeColour).length = (headerField (0x02#8 ++ BitVec.ofNat 24 cs.length)).toNat := by
    rw [headerField_header, BitVec.toNat_ofNat, Nat.mod_eq_of_lt fits, List.length_map]
  exact decode_encode_legal op count (decodeColours_map cs) rest

theorem decode_transmitWords (rest : List Word) : decode (encode .transmit ++ rest) = .instr .transmit rest := rfl

/-- Settles O2, command by command. -/
theorem decodeOfEncodeIsTheCommand : Obligations.DecodeOfEncodeIsTheCommand := by
  intro i rest wellFormed
  cases i with
  | init n l f => exact decode_initWords n l f rest
  | encode cs => exact decode_encodeWords (of_decide_eq_true wellFormed) rest
  | transmit => exact decode_transmitWords rest

/-- Settles O3: the opcode picks the command, and each operand field of its header is the one the encoder writes. -/
theorem encodeOfDecodeIsTheWords : Obligations.EncodeOfDecodeIsTheWords := by
  intro ws rest i decodes
  cases ws with
  | nil => cases decodes
  | cons h ws =>
    rcases opcode_cases h with op | op | op | op
    · rw [decode_init op] at decodes
      cases ws with
      | nil => cases decodes
      | cons f ws =>
        cases decodes
        exact ⟨rfl, congrArg (· :: f :: rest) (op ▸ initHeader_eq h)⟩
    · obtain ⟨cs, rfl, count, rfl⟩ := words_of_decode_encode op decodes
      have fits : cs.length < colourCountBound := count ▸ (headerField h).isLt
      have header : h = 0x02#8 ++ BitVec.ofNat 24 cs.length := by
        rw [count, BitVec.ofNat_toNat, BitVec.setWidth_eq, ← op]
        exact header_eq h
      exact ⟨decide_eq_true fits, congrArg (· :: (cs.map encodeColour ++ rest)) header⟩
    · rw [decode_transmit op] at decodes
      split at decodes
      · next field =>
        cases decodes
        have header : h = 0x03#8 ++ 0#24 := by
          rw [← op, ← field]
          exact header_eq h
        exact ⟨rfl, congrArg (· :: rest) header⟩
      · cases decodes
    · rw [decode_of_unassigned op] at decodes
      cases decodes

/-! Every list of words: the illegal forms, the legal commands, and the words that have not all arrived. -/

/-- A complete command in one of the illegal forms is named illegal, and exactly its words are used up. -/
theorem decode_of_illegalForm {h : Word} {ops : List Word} (complete : 1 + ops.length = commandLength h)
    (form : IllegalForm h ops) (rest : List Word) : ∃ why, decode (h :: (ops ++ rest)) = .illegal why rest := by
  rcases form with op | ⟨op, field⟩ | ⟨op, reserved⟩
  · obtain rfl := operands_eq_nil complete (commandLength_unassigned op)
    exact ⟨_, decode_of_unassigned op rest⟩
  · obtain rfl := operands_eq_nil complete (commandLength_transmit op)
    exact ⟨_, (decode_transmit op rest).trans (if_neg field)⟩
  · rw [commandLength_encode op] at complete
    exact ⟨_, decode_encode_reserved op (by omega) (decodeColours_eq_none.mpr reserved) rest⟩

/-- A complete command in none of the illegal forms is read as a command, and exactly its words are used up. -/
theorem decode_of_not_illegalForm {h : Word} {ops : List Word} (complete : 1 + ops.length = commandLength h)
    (legal : ¬ IllegalForm h ops) (rest : List Word) : ∃ i, decode (h :: (ops ++ rest)) = .instr i rest := by
  rcases opcode_cases h with op | op | op | op
  · obtain ⟨f, rfl⟩ : ∃ f, ops = [f] :=
      List.length_eq_one_iff.mp (by rw [commandLength_init op] at complete; omega)
    exact ⟨_, decode_init op (f :: rest)⟩
  · rw [commandLength_encode op] at complete
    cases colours : decodeColours ops with
    | none => exact absurd (.inr (.inr ⟨op, decodeColours_eq_none.mp colours⟩)) legal
    | some cs => exact ⟨_, decode_encode_legal op (by omega) colours rest⟩
  · obtain rfl := operands_eq_nil complete (commandLength_transmit op)
    by_cases field : headerField h = 0#24
    · exact ⟨_, (decode_transmit op rest).trans (if_pos field)⟩
    · exact absurd (.inr (.inl ⟨op, field⟩)) legal
  · exact absurd (.inl op) legal

/-- A header with fewer words after it than its length asks for has no term yet (R89). -/
theorem decode_of_short {h : Word} {ws : List Word} (short : 1 + ws.length < commandLength h) :
    decode (h :: ws) = .incomplete := by
  rcases opcode_cases h with op | op | op | op
  · obtain rfl : ws = [] := List.length_eq_zero_iff.mp (by rw [commandLength_init op] at short; omega)
    exact decode_init op []
  · rw [commandLength_encode op] at short
    have missing : splitWords (headerField h).toNat ws = none := splitWords_eq_none.mpr (by omega)
    simp [decode_encode op, missing]
  · rw [commandLength_transmit op] at short
    omega
  · rw [commandLength_unassigned op] at short
    omega

/-- Settles O4: a complete command by whether it is in an illegal form, an incomplete one by `decode_of_short`. -/
theorem decodeIsTotalAndNamesIllegalCommands : Obligations.DecodeIsTotalAndNamesIllegalCommands :=
  ⟨fun _ _ rest complete =>
    ⟨fun form => decode_of_illegalForm complete form rest, fun legal => decode_of_not_illegalForm complete legal rest⟩,
    fun _ _ => decode_of_short, rfl⟩

/-- Settles O1: each list of words is a literal, and the decoder runs on it. -/
theorem decodeReadsTheSpecsWords : Obligations.DecodeReadsTheSpecsWords := by
  unfold Obligations.DecodeReadsTheSpecsWords
  decide

end Sys2Proof
end

section
/-! What a step does with the words on the port when they are no legal command, and the response every complete command
ends with (R89, R92, R93). -/

namespace Sys2Proof.Machine

theorem step_of_illegal {s : State} {why : Illegal} {rest : List Word} (port : decode s.cmdPort = .illegal why rest) :
    step s = .next (s.refuseIllegal rest) := by
  rcases step_cases s with ⟨_, _, legal, -⟩ | ⟨_, _, port', refuses⟩ | ⟨incomplete, -⟩
  · cases port.symm.trans legal
  · cases port.symm.trans port'
    exact refuses
  · cases port.symm.trans incomplete

theorem step_of_incomplete {s : State} (port : decode s.cmdPort = .incomplete) : step s = .next s := by
  rcases step_cases s with ⟨_, _, legal, -⟩ | ⟨_, _, illegal, -⟩ | ⟨-, holds⟩
  · cases port.symm.trans legal
  · cases port.symm.trans illegal
  · exact holds

/-- Settles O6: the decoder names the command illegal, whatever the state, and the step refuses it. -/
theorem illegalCommandChangesOnlyResult : Obligations.IllegalCommandChangesOnlyResult := by
  intro s h ops rest port complete form
  obtain ⟨why, illegal⟩ := decode_of_illegalForm complete form rest
  exact step_of_illegal ((congrArg decode port).trans illegal)

/-- Settles O7: neither an empty port nor a header that lacks words holds a complete command. -/
theorem incompleteCommandHolds : Obligations.IncompleteCommandHolds := by
  rintro s (empty | ⟨h, ws, port, short⟩)
  · exact step_of_incomplete (congrArg decode empty)
  · exact step_of_incomplete ((congrArg decode port).trans (decode_of_short short))

/-- RateCheck puts out no response word. -/
@[simp] theorem response_notMem_rateEvents (c : Config) (f : BitVec 32) (w : Word) : .response w ∉ rateEvents c f := by
  rcases rateEvents_cases c f with ⟨-, warns⟩ | ⟨-, silent⟩
  · simp [warns]
  · simp [silent]

/-- Every effect but holding puts out one response word, last, made of the registers it leaves; before it stand INIT's
warning or TRANSMIT's request alone. -/
theorem StepEffect.responds {s t : State} (effect : StepEffect s t) (complete : decode s.cmdPort ≠ .incomplete) :
    ∃ pre : List Output, (∀ w, .response w ∉ pre) ∧
      t.outputs = s.outputs ++ pre ++ [.response (responseWord t.result t.ready t.rateWarn)] := by
  cases effect with
  | held port => exact absurd port complete
  | illegal | notReady | mismatched | encoded => exact ⟨[], by simp, by rw [List.append_nil]; rfl⟩
  | @configured _ _ f | @discarded _ _ f => exact ⟨rateEvents s.cfg f, by simp, rfl⟩
  | requested => exact ⟨[.tx ⟨s.buf.bytes, s.buf.len, s.rateHz⟩], by simp, rfl⟩

/-- Settles O8: the response word is the one of `StepEffect.responds`, and its fields are those of R92. -/
theorem everyCommandAnswersOneResponse : Obligations.EveryCommandAnswersOneResponse := by
  intro s t complete answers
  obtain ⟨pre, noResponse, outputs⟩ := (stepEffect_of_step answers).responds complete
  exact ⟨pre, _, outputs, fun o inPre w isResponse => noResponse w (isResponse ▸ inPre), responseWord_fields ..⟩

end Sys2Proof.Machine
end

section
/-! The fields of a packed colour (R80) and their bit pairs (R81). -/

namespace Sys2Proof

@[simp] theorem Colour.packed_red (c : Colour) : c.packed.extractLsb' 16 8 = c.r := by
  apply BitVec.eq_of_getLsbD_eq
  intro i inByte
  rw [BitVec.getLsbD_extractLsb', packed_getLsbD]
  simp [inByte, show ¬ 16 + i < 8 by omega, show 16 + i < 24 by omega]

@[simp] theorem Colour.packed_green (c : Colour) : c.packed.extractLsb' 8 8 = c.g := by
  apply BitVec.eq_of_getLsbD_eq
  intro i inByte
  rw [BitVec.getLsbD_extractLsb', packed_getLsbD]
  simp [inByte, show 8 + i < 16 by omega]

@[simp] theorem Colour.packed_blue (c : Colour) : c.packed.extractLsb' 0 8 = c.b := by
  apply BitVec.eq_of_getLsbD_eq
  intro i inByte
  rw [BitVec.getLsbD_extractLsb', packed_getLsbD]
  simp [inByte]

/-- Four lanes from lane `j` on are the bit pairs of the byte that starts at bit `2j`. -/
theorem lane_add (v : BitVec 24) (j : Nat) {k : Nat} (inByte : k < 4) :
    lane v (j + k) = (v.extractLsb' (2 * j) 8).extractLsb' (2 * k) 2 := by
  apply BitVec.eq_of_getLsbD_eq
  intro i inPair
  rw [lane_getLsbD v (j + k) i inPair]
  simp [inPair, show 2 * k + i < 8 by omega, show 2 * (j + k) + i = 2 * j + (2 * k + i) by omega]

/-- Settles O45: the lanes 0, 4 and 8 start at the bits where blue, green and red do. -/
theorem packedLanesAreTheChannelsPairs : Obligations.PackedLanesAreTheChannelsPairs := by
  intro c
  refine ⟨c.packed_red, c.packed_green, c.packed_blue, fun k inByte => ⟨?_, ?_, ?_⟩⟩
  · simpa using lane_add c.packed 0 inByte
  · simpa using lane_add c.packed 4 inByte
  · simpa using lane_add c.packed 8 inByte

end Sys2Proof
end

section
/-! The symbol table (R113 to R116): which nibbles are well formed, validity as the round trip, and the blocks that are
built. -/

namespace Sys2Proof

/-- Settles O42: there are sixteen nibbles, and each is checked. -/
theorem wellFormedSymbolNibbles : Obligations.WellFormedSymbolNibbles := by
  refine ⟨?_, rfl, rfl, rfl⟩
  decide

/-- Only a well-formed nibble has a logical bit (R114). -/
theorem wellFormedNibble_of_decodeNibble {thr : Nat} {x : BitVec 4} {bit : Bool}
    (decodes : decodeNibble thr x = some bit) : wellFormedNibble x = true := by
  by_cases wellFormed : wellFormedNibble x = true
  · exact wellFormed
  · simp [decodeNibble, wellFormed] at decodes

/-- Validity is the round trip through the lookup (R115). -/
theorem Lut.valid_iff {thr : Nat} {t : Lut} :
    t.valid thr = true ↔ ∀ p : BitVec 2, decodeByte thr (t.sym p) = some p := by
  refine ⟨t.decodeByte_sym, fun roundTrip => ?_⟩
  simp only [Lut.valid, Bool.and_eq_true, decide_eq_true_eq]
  exact ⟨⟨⟨roundTrip 0b00#2, roundTrip 0b01#2⟩, roundTrip 0b10#2⟩, roundTrip 0b11#2⟩

/-- The lookup in a valid table is undone by the decoding of the entry (R116). -/
theorem Lut.sym_injective {thr : Nat} {t : Lut} (valid : t.valid thr = true) : Function.Injective t.sym := by
  intro p q sameEntry
  apply Option.some.inj
  calc
    some p = decodeByte thr (t.sym p) := (t.decodeByte_sym valid p).symm
    _ = decodeByte thr (t.sym q) := congrArg _ sameEntry
    _ = some q := t.decodeByte_sym valid q

/-- Settles O44: the lookup in a valid table is injective. -/
theorem validTableIsInjective : Obligations.ValidTableIsInjective :=
  fun _ t valid _ _ sameEntry => t.sym_injective valid sameEntry

end Sys2Proof

namespace Sys2Proof.Machine

theorem State.powerOn_of_valid {c : Config} (valid : c.valid = true) :
    State.powerOn c = some { State.reset with cfg := c } := by
  simp [State.powerOn, valid]

/-- Parameters with an invalid table are refused (R115). -/
theorem State.powerOn_of_invalid_lut {c : Config} (invalid : c.lut.valid c.symbolThresholdCells = false) :
    State.powerOn c = none := by
  simp [State.powerOn, Config.valid, invalid]

/-- Settles O43: validity is the round trip, whose decoding asks for well-formed nibbles; a block is built in the reset
state, not ready and with an empty buffer. -/
theorem onlyValidTablesAreBuilt : Obligations.OnlyValidTablesAreBuilt := by
  refine ⟨fun thr t => ⟨fun valid p => ?_, fun entries => ?_⟩, fun c => State.powerOn_of_invalid_lut,
    fun c valid => ?_, by decide, ?_⟩
  · have roundTrip := t.decodeByte_sym valid p
    obtain ⟨high, low⟩ := decodeByte_eq_some roundTrip
    exact ⟨wellFormedNibble_of_decodeNibble high, wellFormedNibble_of_decodeNibble low, roundTrip⟩
  · refine Lut.valid_iff.mpr fun p => ?_
    obtain ⟨-, -, roundTrip⟩ := entries p
    exact roundTrip
  · exact ⟨_, State.powerOn_of_valid valid, rfl, blockInv_of_not_ready rfl rfl⟩
  · exact State.powerOn_of_valid (c := Config.standard) (by decide)

end Sys2Proof.Machine
end

section
/-! The frame is invertible under a valid table (R116, R146): its colour region carries the bits of the colours, and a
colour is its 24 bits. -/

namespace Sys2Proof

theorem byteCells_injective : Function.Injective byteCells := by
  intro b b' sameCells
  apply BitVec.eq_of_getLsbD_eq
  intro i inByte
  have sameBit := List.getElem_of_eq sameCells (i := 7 - i) (by simp; omega)
  simpa [byteCells, show 7 - (7 - i) = i by omega] using sameBit

@[simp] theorem Colour.logicalBits_length (c : Colour) : c.logicalBits.length = 24 := rfl

theorem Colour.logicalBits_injective : Function.Injective Colour.logicalBits := by
  rintro ⟨r, g, b⟩ ⟨r', g', b'⟩ sameBits
  obtain ⟨redGreen, blue⟩ := List.append_inj sameBits rfl
  obtain ⟨red, green⟩ := List.append_inj redGreen rfl
  obtain rfl : r = r' := byteCells_injective red
  obtain rfl : g = g' := byteCells_injective green
  obtain rfl : b = b' := byteCells_injective blue
  rfl

/-- Every colour takes 24 bits, so a sequence of colours can be read off its bits. -/
theorem flatMap_logicalBits_injective : Function.Injective (List.flatMap Colour.logicalBits) := by
  intro cs
  induction cs with
  | nil =>
    rintro (_ | ⟨c', cs'⟩) sameBits
    · rfl
    · simpa using congrArg List.length sameBits.symm
  | cons c cs ih =>
    rintro (_ | ⟨c', cs'⟩) sameBits
    · simpa using congrArg List.length sameBits
    · obtain ⟨first, others⟩ := List.append_inj sameBits rfl
      rw [Colour.logicalBits_injective first, ih others]

/-- Under a valid table a frame determines its colours (R116). -/
theorem frameBytes_injective {thr : Nat} {t : Lut} (valid : t.valid thr = true) (l : Nat) :
    Function.Injective (frameBytes t l) := by
  intro cs cs' sameFrame
  have sameRegion : cs.flatMap (symbolBytes t) = cs'.flatMap (symbolBytes t) :=
    List.append_cancel_left (List.append_cancel_right sameFrame)
  apply flatMap_logicalBits_injective
  apply Option.some.inj
  calc
    some (cs.flatMap Colour.logicalBits) = decodeCells thr (wireCells (cs.flatMap (symbolBytes t))) :=
      (wireCarriesTheColoursBits thr t cs valid).1.symm
    _ = decodeCells thr (wireCells (cs'.flatMap (symbolBytes t))) := by rw [sameRegion]
    _ = some (cs'.flatMap Colour.logicalBits) := (wireCarriesTheColoursBits thr t cs' valid).1

end Sys2Proof

namespace Sys2Proof.Machine

/-- ENCODE's stores on a buffer with zero latch regions leave exactly the frame (R146). -/
theorem encodedBuffer_bytes {t : Lut} {l : Nat} {cs : List Colour} {m : Memory} (canonical : m.wf = true)
    (length : m.len = 12 * cs.length + 2 * l)
    (latchZero : ∀ a, a < m.len → a < l ∨ l + 12 * cs.length ≤ a → lookupCell m.cells a = 0#8) :
    (encodedBuffer t l cs m).bytes = frameBytes t l cs := by
  refine List.ext_getElem (by simp [length]) fun a inBuffer inFrame => ?_
  rw [Memory.bytes_getElem]
  rw [Memory.bytes_length, encodedBuffer_len] at inBuffer
  rcases frame_address_cases l cs.length a with latch | ⟨i, j, isLed, isByte, rfl⟩
  · rw [encodedBuffer_latch canonical length inBuffer latch (latchZero a inBuffer latch),
      frameBytes_latch t l cs a latch]
  · rw [encodedBuffer_colour canonical length isLed isByte, frameBytes_colour t l cs i j isLed isByte]

/-- ENCODE ends with OK only by its whole effect, on a ready block and with the configured number of colours (R140). -/
theorem eq_encoded_of_execEncode_ok {cs : List Colour} {s t : State} (answers : execEncode cs s = .next t)
    (ok : t.result = .ok) : s.ready = true ∧ cs.length = s.ledCount.toNat ∧ t = s.encoded cs := by
  rcases execEncode_cases cs s with
    ⟨-, refuses⟩ | ⟨-, -, refuses⟩ | ⟨ready, length, -, encodes⟩ | ⟨-, -, _, -, -, faults⟩
  · cases refuses.symm.trans answers
    cases ok
  · cases refuses.symm.trans answers
    cases ok
  · cases encodes.symm.trans answers
    exact ⟨ready, length, rfl⟩
  · cases faults.symm.trans answers

/-- Under the invariant the buffer after an admitted ENCODE is the frame of its colours (R146). -/
theorem BlockInv.encoded_bytes {s : State} (h : BlockInv s) (ready : s.ready = true) {cs : List Colour}
    (length : cs.length = s.ledCount.toNat) :
    (s.encoded cs).buf.bytes = frameBytes s.cfg.lut s.latchBytes.toNat cs := by
  have bufLength : s.buf.len = 12 * cs.length + 2 * s.latchBytes.toNat := length ▸ h.readyLength ready
  refine encodedBuffer_bytes h.bufCanonical bufLength fun a inRange latch => ?_
  rw [length] at latch
  exact (Memory.read_eq_ok.mp (h.latchZero ready a inRange latch)).2

/-- Under the invariant a successful ENCODE leaves the frame of its colours (R146). -/
theorem BlockInv.bytes_of_execEncode_ok {s t : State} (h : BlockInv s) {cs : List Colour}
    (answers : execEncode cs s = .next t) (ok : t.result = .ok) :
    t.buf.bytes = frameBytes s.cfg.lut s.latchBytes.toNat cs := by
  obtain ⟨ready, length, rfl⟩ := eq_encoded_of_execEncode_ok answers ok
  exact h.encoded_bytes ready length

/-- Settles O26: both buffers are frames under one table and with one latch length, and such a frame determines its
colours. -/
theorem encodeIsInvertible : Obligations.EncodeIsInvertible := by
  intro thr s s' t t' cs cs' h h' valid sameLut sameLatch answers answers' ok ok' sameBytes
  apply frameBytes_injective valid s.latchBytes.toNat
  calc
    frameBytes s.cfg.lut s.latchBytes.toNat cs = t.buf.bytes := (h.bytes_of_execEncode_ok answers ok).symm
    _ = t'.buf.bytes := sameBytes
    _ = frameBytes s'.cfg.lut s'.latchBytes.toNat cs' := h'.bytes_of_execEncode_ok answers' ok'
    _ = frameBytes s.cfg.lut s.latchBytes.toNat cs' := by rw [sameLut, sameLatch]

end Sys2Proof.Machine
end

section
/-! The buffer of a ready block is whole at every time (R135, R146): INIT zeroes all of it, ENCODE writes the frame of
its colours, and no other effect of a step touches it. -/

namespace Sys2Proof.Machine

/-- Every effect of a step leaves all zeros or a whole frame where it leaves the block ready. -/
theorem StepEffect.keeps_frameImage {s t : State} (effect : StepEffect s t) (h : BlockInv s) (image : FrameImage s) :
    FrameImage t := by
  cases effect with
  | held | illegal | notReady | mismatched | requested => exact image
  | configured => exact fun _ => .inl (Memory.zeros_bytes _)
  | discarded => exact nofun
  | @encoded cs rest _ ready length =>
    exact fun _ => .inr ⟨cs, length, (h.takeCommand rest).encoded_bytes ready length⟩

/-- Settles O35, by a split over the effects of a step. -/
theorem everyStepKeepsAWholeFrame : Obligations.EveryStepKeepsAWholeFrame :=
  fun _ _ h image answers => (stepEffect_of_step answers).keeps_frameImage h image

end Sys2Proof.Machine
end

section
/-! INIT (R133 to R138): its two outcomes by the capacity, what both have in common, and the zeros that a TRANSMIT
right after a successful one sends. -/

namespace Sys2Proof.Machine

section Outcomes

variable {n : BitVec 16} {l : BitVec 8} {f : BitVec 32}

theorem execInit_of_fits {s : State} (fits : bufferSize n.toNat l.toNat ≤ s.cfg.bufCapacity) :
    execInit n l f s =
      .next ((((s.configure n l f).rateCheck f).allocate (bufferSize n.toNat l.toNat)).complete .ok) := by
  rcases execInit_cases n l f s with ⟨-, succeeds⟩ | ⟨tooLarge, -⟩
  · exact succeeds
  · omega

theorem execInit_of_tooLarge {s : State} (tooLarge : s.cfg.bufCapacity < bufferSize n.toNat l.toNat) :
    execInit n l f s = .next (((s.configure n l f).rateCheck f).discard.raise .allocFail) := by
  rcases execInit_cases n l f s with ⟨fits, -⟩ | ⟨-, fails⟩
  · omega
  · exact fails

/-- The bit that R170's condition determines is the one RateCheck writes. -/
theorem eq_rateOutOfRange {c : Config} {out : Bool}
    (outside : out = true ↔ (f.toNat < c.rateMinHz ∨ c.rateMaxHz < f.toNat)) : out = rateOutOfRange c f :=
  Bool.eq_iff_iff.mpr (outside.trans (rateOutOfRange_iff c f).symm)

/-- INIT ends with OK only by allocating the buffer (R135). -/
theorem eq_allocated_of_execInit_ok {s t : State} (answers : execInit n l f s = .next t) (ok : t.result = .ok) :
    t = (((s.configure n l f).rateCheck f).allocate (bufferSize n.toNat l.toNat)).complete .ok := by
  rcases execInit_cases n l f s with ⟨-, succeeds⟩ | ⟨-, fails⟩
  · cases succeeds.symm.trans answers
    rfl
  · cases fails.symm.trans answers
    cases ok

/-- On a ready block TRANSMIT makes its one request, whatever the transport answers (R180). -/
theorem execTransmit_of_ready {s : State} (ready : s.ready = true) :
    execTransmit s = .next (s.requestTx.complete (answerResult s.nextAnswer)) := by
  rcases execTransmit_cases s with ⟨notReady, -⟩ | ⟨-, requests⟩
  · exact absurd ready (by simp [notReady])
  · exact requests

end Outcomes

/-- Settles O13: both outcomes start with the same register writes and the same rate check. -/
theorem initAlwaysConfiguresAndChecksTheRate : Obligations.InitAlwaysConfiguresAndChecksTheRate := by
  intro s t n l f answers
  rcases execInit_cases n l f s with ⟨-, succeeds⟩ | ⟨-, fails⟩
  · cases succeeds.symm.trans answers
    exact ⟨rfl, rfl, rfl, rateOutOfRange_iff s.cfg f, _, rfl⟩
  · cases fails.symm.trans answers
    exact ⟨rfl, rfl, rfl, rateOutOfRange_iff s.cfg f, _, rfl⟩

/-- Settles O15: the buffer afterwards is `zeros(S)` or empty. -/
theorem initFrame : Obligations.InitFrame := by
  intro s t n l f answers
  rcases execInit_cases n l f s with ⟨-, succeeds⟩ | ⟨-, fails⟩
  · cases succeeds.symm.trans answers
    refine ⟨rfl, rfl, rfl, rfl, fun _ => rfl, fun failed => absurd rfl failed, fun a inRange => ?_⟩
    exact Memory.read_eq_ok.mpr ⟨inRange, lookupCell_zeros _ _⟩
  · cases fails.symm.trans answers
    exact ⟨rfl, rfl, rfl, rfl, nofun, fun _ => ⟨rfl, rfl⟩, fun a inRange => absurd inRange (Nat.not_lt_zero a)⟩

/-- Settles O31: after a successful INIT the block is ready and its buffer is `zeros(S)`, which TRANSMIT hands over. -/
theorem transmitAfterInitSendsZeros : Obligations.TransmitAfterInitSendsZeros := by
  intro s t n l f answers ok
  obtain rfl := eq_allocated_of_execInit_ok answers ok
  rw [← Memory.zeros_bytes]
  exact ⟨_, _, execTransmit_of_ready rfl, List.append_assoc ..⟩

/-- Settles O11: the allocated state is the one written out, its warning bit being RateCheck's. -/
theorem initAllocatesAZeroedBuffer : Obligations.InitAllocatesAZeroedBuffer := by
  intro s n l f out fits outside
  obtain rfl := eq_rateOutOfRange outside
  exact ⟨execInit_of_fits fits, Memory.zeros_bytes _⟩

/-- Settles O12: the failed state is the one written out, its warning bit being RateCheck's. -/
theorem initFailsBeyondTheCapacity : Obligations.InitFailsBeyondTheCapacity := by
  intro s n l f out tooLarge outside
  obtain rfl := eq_rateOutOfRange outside
  exact ⟨execInit_of_tooLarge tooLarge, rfl⟩

end Sys2Proof.Machine
end

section
/-! ENCODE (R139 to R148): what it stores, where it stores, and that the buffer it leaves depends on its colours, the
table and the configuration alone. -/

namespace Sys2Proof.Machine

/-- The buffer after ENCODE's stores holds what was stored: no address is stored two values. -/
theorem encodedBuffer_read_of_stored {t : Lut} {l : Nat} {cs : List Colour} {m : Memory} (canonical : m.wf = true)
    (fits : 12 * cs.length + 2 * l ≤ m.len) {a : Nat} {v : Byte} (stored : (a, v) ∈ encodeStores t l cs) :
    (encodedBuffer t l cs m).read a = .ok v := by
  have inRange : ∀ w ∈ encodeStores t l cs, w.1 < m.len := fun w hw => by
    have := encodeStores_range hw
    omega
  refine Memory.read_eq_ok.mpr ⟨inRange _ stored, ?_⟩
  refine lookupCell_foldl_of_mem _ canonical (fun w hw => ⟨Nat.zero_le _, inRange w hw⟩) stored ?_
  rintro ⟨_, v'⟩ stored' rfl
  exact encodeStores_functional stored' stored

/-- An ENCODE that ends with OK found a buffer as long as its frame, or longer (R52). -/
theorem frameLength_le_of_execEncode_ok {cs : List Colour} {s t : State} (answers : execEncode cs s = .next t)
    (ok : t.result = .ok) : 12 * s.ledCount.toNat + 2 * s.latchBytes.toNat ≤ s.buf.len := by
  obtain ⟨ready, length, -⟩ := eq_encoded_of_execEncode_ok answers ok
  by_contra short
  obtain ⟨a, faults⟩ := execEncode_faults_of_short ready length (Nat.lt_of_not_le short)
  cases faults.symm.trans answers

/-- The addresses of ENCODE's stores are one range without a gap (R145). -/
theorem mem_encodeStores_addresses {t : Lut} {l : Nat} {cs : List Colour} {a : Nat} :
    a ∈ (encodeStores t l cs).map Prod.fst ↔ l ≤ a ∧ a < 2 * l + 12 * cs.length := by
  constructor
  · intro isAddress
    obtain ⟨w, stored, rfl⟩ := List.mem_map.mp isAddress
    exact encodeStores_range stored
  · rintro ⟨lower, upper⟩
    obtain ⟨v, stored⟩ := encodeStores_addresses (t := t) lower upper
    exact List.mem_map.mpr ⟨_, stored, rfl⟩

/-- An address that ENCODE does not store to reads as before, whatever the result (R148). -/
theorem execEncode_read_of_not_stored {cs : List Colour} {s t : State} (answers : execEncode cs s = .next t) {a : Nat}
    (notStored : a ∉ (encodeStores s.cfg.lut s.latchBytes.toNat cs).map Prod.fst) : t.buf.read a = s.buf.read a := by
  rcases execEncode_cases cs s with
    ⟨-, refuses⟩ | ⟨-, -, refuses⟩ | ⟨-, -, -, encodes⟩ | ⟨-, -, _, -, -, faults⟩
  · cases refuses.symm.trans answers
    rfl
  · cases refuses.symm.trans answers
    rfl
  · cases encodes.symm.trans answers
    have untouched : ∀ w ∈ encodeStores s.cfg.lut s.latchBytes.toNat cs, w.1 ≠ a :=
      fun w stored same => notStored (List.mem_map.mpr ⟨w, stored, same⟩)
    exact Memory.read_congr rfl (encodedBuffer_other _ _ _ _ untouched)
  · cases faults.symm.trans answers

/-- Under the invariant an admitted ENCODE has its whole effect. -/
theorem BlockInv.execEncode_eq {s : State} (h : BlockInv s) (ready : s.ready = true) {cs : List Colour}
    (length : cs.length = s.ledCount.toNat) : execEncode cs s = .next (s.encoded cs) :=
  execEncode_completes ready length (h.readyLength ready)

/-- The closed form of a colour's symbol bytes, with the lanes written as shifts (R142). -/
theorem symbolBytes_eq_map_shift (t : Lut) :
    symbolBytes t = fun c : Colour => (List.range 12).map fun j => t.sym ((c.packed >>> (22 - 2 * j)).setWidth 2) := by
  funext c
  simp only [symbolBytes, bytesPerLed, lane_eq_shift, Nat.mul_sub, Nat.reduceMul]

/-- Settles O18: lane `k` of LED `i` is stored at byte `11 - k` of its region. -/
theorem encodeExpandsEveryLane : Obligations.EncodeExpandsEveryLane := by
  intro s cs h ready length
  refine ⟨_, h.execEncode_eq ready length, rfl, fun i k isLed isLane => ?_⟩
  apply encodedBuffer_read_of_stored h.bufCanonical (length ▸ h.readyLength ready).ge
  refine mem_encodeStores.mpr (.inl ⟨i, isLed, 11 - k, by omega, ?_⟩)
  rw [← lane_eq_shift, show 11 - (11 - k) = k by omega,
    show s.latchBytes.toNat + 12 * i + 11 - k = s.latchBytes.toNat + 12 * i + (11 - k) by omega]

/-- Settles O19: the buffer of the encoded state is the frame, whose colour region is the closed form. -/
theorem encodeMakesExactlyTheFrame : Obligations.EncodeMakesExactlyTheFrame := by
  intro s cs h ready length
  refine ⟨(s.encoded cs).buf, ?_, (h.encoded ready length).bufCanonical, ?_⟩
  · rw [← ready]
    exact h.execEncode_eq ready length
  · rw [← symbolBytes_eq_map_shift]
    exact h.encoded_bytes ready length

/-- Settles O20: an error changes `RESULT` alone and a success the stored bytes too. -/
theorem encodeFrame : Obligations.EncodeFrame := by
  intro s t cs answers
  have others := fun a => execEncode_read_of_not_stored answers (a := a)
  rcases execEncode_cases cs s with
    ⟨-, refuses⟩ | ⟨-, -, refuses⟩ | ⟨-, -, -, encodes⟩ | ⟨-, -, _, -, -, faults⟩
  · cases refuses.symm.trans answers
    exact ⟨rfl, rfl, rfl, rfl, rfl, rfl, rfl, rfl, rfl, ⟨_, rfl⟩, fun _ => rfl, others⟩
  · cases refuses.symm.trans answers
    exact ⟨rfl, rfl, rfl, rfl, rfl, rfl, rfl, rfl, rfl, ⟨_, rfl⟩, fun _ => rfl, others⟩
  · cases encodes.symm.trans answers
    exact ⟨rfl, rfl, rfl, rfl, rfl, rfl, rfl, rfl, rfl, ⟨_, rfl⟩, fun failed => absurd rfl failed, others⟩
  · cases faults.symm.trans answers

/-- Settles O21: the stores begin at `L`. -/
theorem encodeKeepsTheLeadingLatch : Obligations.EncodeKeepsTheLeadingLatch := by
  intro s t cs answers a leading
  have kept : t.buf.read a = s.buf.read a := execEncode_read_of_not_stored answers fun isAddress => by
    have := mem_encodeStores_addresses.mp isAddress
    omega
  refine ⟨kept, fun h ready => kept.trans (h.latchZero ready a ?_ (.inl leading))⟩
  have := h.readyLength ready
  omega

/-- Settles O22: each byte of the trailing latch region is stored a zero, and held one under the invariant. -/
theorem encodeZeroesTheTrailingLatch : Obligations.EncodeZeroesTheTrailingLatch := by
  intro s t cs canonical answers ok j trailing
  have fits := frameLength_le_of_execEncode_ok answers ok
  obtain ⟨ready, length, rfl⟩ := eq_encoded_of_execEncode_ok answers ok
  refine ⟨?_, fun h => h.latchZero ready _ (by omega) (.inr (by omega))⟩
  rw [← length] at fits ⊢
  exact encodedBuffer_read_of_stored canonical fits (mem_encodeStores.mpr (.inr ⟨j, trailing, rfl⟩))

/-- Settles O23: the range of the stores ends where the buffer does. -/
theorem encodeStoresExactlyItsRange : Obligations.EncodeStoresExactlyItsRange := by
  intro s cs h ready length a
  have bufEnd : 2 * s.latchBytes.toNat + 12 * cs.length = s.buf.len := by
    rw [h.readyLength ready, length, Nat.add_comm]
  rw [mem_encodeStores_addresses, bufEnd]

/-- Under the invariant the buffer after an admitted ENCODE is the same whatever it held before (R61). -/
theorem BlockInv.encoded_buf_eq {s s' : State} (h : BlockInv s) (h' : BlockInv s') (ready : s.ready = true)
    (ready' : s'.ready = true) {cs : List Colour} (length : cs.length = s.ledCount.toNat)
    (length' : cs.length = s'.ledCount.toNat) (sameLut : s.cfg.lut = s'.cfg.lut)
    (sameLatch : s.latchBytes = s'.latchBytes) : (s.encoded cs).buf = (s'.encoded cs).buf := by
  apply canonicalBuffersAreTheirBytes _ _ (h.encoded ready length).bufCanonical (h'.encoded ready' length').bufCanonical
  rw [h.encoded_bytes ready length, h'.encoded_bytes ready' length', sameLut, sameLatch]

/-- Settles O24: both buffers are the frame of the colours, and the state after an ENCODE is one more state that meets
the invariant. -/
theorem encodeForgetsHistory : Obligations.EncodeForgetsHistory := by
  intro s s' t t' cs h h' sameLut sameLatch _ answers answers' ok ok'
  obtain ⟨ready, length, rfl⟩ := eq_encoded_of_execEncode_ok answers ok
  obtain ⟨ready', length', rfl⟩ := eq_encoded_of_execEncode_ok answers' ok'
  refine ⟨h.encoded_buf_eq h' ready ready' length length' sameLut sameLatch, fun u repeats => ?_⟩
  have again : BlockInv (s.encoded cs) := h.encoded ready length
  cases (again.execEncode_eq ready length).symm.trans repeats
  exact again.encoded_buf_eq h ready ready length length rfl rfl

/-- With no LEDs the whole buffer is latch regions (R53). -/
theorem BlockInv.bytes_of_no_leds {s : State} (h : BlockInv s) (ready : s.ready = true) (noLeds : s.ledCount = 0#16) :
    s.buf.bytes = List.replicate (2 * s.latchBytes.toNat) 0#8 := by
  have length : s.buf.len = 2 * s.latchBytes.toNat := by simpa [noLeds] using h.readyLength ready
  refine List.ext_getElem (by simp [length]) fun a inBuffer _ => ?_
  rw [Memory.bytes_length] at inBuffer
  have latch : s.inLatch a := by simpa [State.inLatch, noLeds] using Nat.lt_or_ge a s.latchBytes.toNat
  obtain ⟨-, zero⟩ := Memory.read_eq_ok.mp (h.latchZero ready a inBuffer latch)
  simpa using zero

/-- Settles O25: the frame of no colours is the `2L` zeros that stand in the buffer already. -/
theorem encodeOfNoLedsKeepsTheBuffer : Obligations.EncodeOfNoLedsKeepsTheBuffer := by
  intro s h ready noLeds
  have length : ([] : List Colour).length = s.ledCount.toNat := by simp [noLeds]
  have zeros := h.bytes_of_no_leds ready noLeds
  have kept : (s.encoded []).buf = s.buf := by
    apply canonicalBuffersAreTheirBytes _ _ (h.encoded ready length).bufCanonical h.bufCanonical
    rw [h.encoded_bytes ready length, zeros, frameBytes, Nat.two_mul, List.replicate_add]
    simp
  refine ⟨?_, zeros⟩
  calc
    execEncode [] s = .next (s.encoded []) := h.execEncode_eq ready length
    _ = .next (State.complete .ok { s with buf := (s.encoded []).buf }) := rfl
    _ = _ := by rw [kept, State.complete, ready]

end Sys2Proof.Machine
end

section
/-! RateCheck (R170 to R174): where a rate stands to the window `[RATE_MIN_HZ, RATE_MAX_HZ]`, both ends inside. -/

namespace Sys2Proof.Machine

section Window

variable {c : Config} {f : BitVec 32}

theorem rateOutOfRange_of_below (below : f.toNat < c.rateMinHz) : rateOutOfRange c f = true :=
  (rateOutOfRange_iff c f).mpr (.inl below)

theorem rateOutOfRange_of_above (above : c.rateMaxHz < f.toNat) : rateOutOfRange c f = true :=
  (rateOutOfRange_iff c f).mpr (.inr above)

theorem rateOutOfRange_eq_false_iff :
    rateOutOfRange c f = false ↔ c.rateMinHz ≤ f.toNat ∧ f.toNat ≤ c.rateMaxHz := by
  rw [← Bool.not_eq_true, rateOutOfRange_iff, not_or, Nat.not_lt, Nat.not_lt]

end Window

/-- Settles O14: three rates of the table lie below the window, three in it with both its ends, two above it. -/
theorem rateWindowBoundaries : Obligations.RateWindowBoundaries := by
  refine ⟨rateOutOfRange_of_below ?_, rateOutOfRange_of_below ?_, rateOutOfRange_of_below ?_,
    rateOutOfRange_eq_false_iff.mpr ?_, rateOutOfRange_eq_false_iff.mpr ?_, rateOutOfRange_eq_false_iff.mpr ?_,
    rateOutOfRange_of_above ?_, rateOutOfRange_of_above ?_⟩ <;> decide

end Sys2Proof.Machine
end

section
/-! TRANSMIT (R180 to R187): the answer it takes from the transport, the one request it makes, and that it leaves the
frame in the buffer to be requested again. -/

namespace Sys2Proof.Machine

@[simp] theorem answerResult_eq_ok {a : TxAnswer} : answerResult a = .ok ↔ a = .ok := by
  cases a <;> simp [answerResult]

@[simp] theorem answerResult_eq_xmitFail {a : TxAnswer} : answerResult a = .xmitFail ↔ a = .fail := by
  cases a <;> simp [answerResult]

theorem answerResult_cases (a : TxAnswer) : answerResult a = .ok ∨ answerResult a = .xmitFail := by
  cases a <;> simp

theorem State.nextAnswer_of_stored {s : State} {a : TxAnswer} {as : List TxAnswer} (stored : s.txAnswers = a :: as) :
    s.nextAnswer = a := by
  simp [State.nextAnswer, stored]

/-- The state after a TRANSMIT on a ready block. -/
def State.transmitted (s : State) : State := s.requestTx.complete (answerResult s.nextAnswer)

theorem exec_transmit_of_ready {s : State} (ready : s.ready = true) : exec .transmit s = .next s.transmitted :=
  execTransmit_of_ready ready

/-- TRANSMIT puts out its request, then its response (R92, R180). -/
theorem State.transmitted_outputs (s : State) :
    s.transmitted.outputs = s.outputs ++ [.tx ⟨s.buf.bytes, s.buf.len, s.rateHz⟩,
      .response (responseWord (answerResult s.nextAnswer) s.ready s.rateWarn)] :=
  List.append_assoc ..

/-- Settles O27: nonzero reserved bits are one of R93's illegal forms, and `execTransmit_cases` has the rest. -/
theorem transmitHandsOverTheWholeBuffer : Obligations.TransmitHandsOverTheWholeBuffer := by
  refine ⟨fun s h rest port op reserved => ?_, fun s notReady => ?_, fun s r ready answer => ?_⟩
  · exact illegalCommandChangesOnlyResult s h [] rest port (commandLength_transmit op).symm
      (.inr (.inl ⟨op, reserved⟩))
  · rw [← notReady]
    exact exec_of_not_ready notReady nofun
  · obtain rfl : r = answerResult s.nextAnswer := by
      rcases answer with ⟨succeeds, rfl⟩ | ⟨fails, rfl⟩
      · exact (answerResult_eq_ok.mpr succeeds).symm
      · exact (answerResult_eq_xmitFail.mpr fails).symm
    rw [← ready, ← s.transmitted_outputs]
    exact exec_transmit_of_ready ready

/-- Settles O29: TRANSMIT writes no register but `RESULT` and no byte of the buffer, so the block is as ready as before
and its next request is made of the same buffer and rate. -/
theorem failedTransmitKeepsTheFrame : Obligations.FailedTransmitKeepsTheFrame := by
  intro s t ready fails answers
  cases (exec_transmit_of_ready ready).symm.trans answers
  exact ⟨answerResult_eq_xmitFail.mpr fails, ready, rfl, rfl, rfl, rfl, rfl, rfl, rfl, ⟨_, s.transmitted_outputs⟩,
    _, _, exec_transmit_of_ready ready, State.transmitted_outputs _⟩

/-- Settles O30: the first TRANSMIT leaves the block ready, with the buffer and the rate the second one requests. -/
theorem repeatedTransmitRequestsTheSame : Obligations.RepeatedTransmitRequestsTheSame := by
  intro s ready
  have outputs := s.transmitted.transmitted_outputs
  rw [s.transmitted_outputs, List.append_assoc] at outputs
  exact ⟨_, _, _, _, _, exec_transmit_of_ready ready, exec_transmit_of_ready ready, outputs, rfl, rfl, rfl⟩

end Sys2Proof.Machine
end

section
/-! INIT and ENCODE neither read the transport's answers nor use one up (R181). -/

namespace Sys2Proof.Machine

theorem execEncode_of_mismatch {cs : List Colour} {s : State} (ready : s.ready = true)
    (mismatch : cs.length ≠ s.ledCount.toNat) : execEncode cs s = .next (s.raise .lenMismatch) := by
  rcases execEncode_cases cs s with ⟨notReady, -⟩ | ⟨-, -, refuses⟩ | ⟨-, length, -⟩ | ⟨-, length, -⟩
  · exact absurd ready (by simp [notReady])
  · exact refuses
  · exact absurd length mismatch
  · exact absurd length mismatch

theorem execEncode_of_inRange {cs : List Colour} {s : State} (ready : s.ready = true)
    (length : cs.length = s.ledCount.toNat)
    (inRange : ∀ w ∈ encodeStores s.cfg.lut s.latchBytes.toNat cs, w.1 < s.buf.len) :
    execEncode cs s = .next (s.encoded cs) := by
  rcases execEncode_cases cs s with
    ⟨notReady, -⟩ | ⟨-, mismatch, -⟩ | ⟨-, -, -, encodes⟩ | ⟨-, -, w, stored, outside, -⟩
  · exact absurd ready (by simp [notReady])
  · exact absurd length mismatch
  · exact encodes
  · exact absurd (inRange w stored) (Nat.not_lt_of_le outside)

section OtherAnswers

variable {s t : State} (as : List TxAnswer) (k : Nat)

theorem execInit_other_answers {n : BitVec 16} {l : BitVec 8} {f : BitVec 32} (answers : execInit n l f s = .next t) :
    execInit n l f { s with txAnswers := as, txDraws := k } = .next { t with txAnswers := as, txDraws := k } := by
  rcases execInit_cases n l f s with ⟨fits, succeeds⟩ | ⟨tooLarge, fails⟩
  · cases succeeds.symm.trans answers
    exact execInit_of_fits fits
  · cases fails.symm.trans answers
    exact execInit_of_tooLarge tooLarge

theorem execEncode_other_answers {cs : List Colour} (answers : execEncode cs s = .next t) :
    execEncode cs { s with txAnswers := as, txDraws := k } = .next { t with txAnswers := as, txDraws := k } := by
  rcases execEncode_cases cs s with
    ⟨notReady, refuses⟩ | ⟨ready, mismatch, refuses⟩ | ⟨ready, length, inRange, encodes⟩ | ⟨-, -, _, -, -, faults⟩
  · cases refuses.symm.trans answers
    exact exec_of_not_ready (i := .encode cs) notReady nofun
  · cases refuses.symm.trans answers
    exact execEncode_of_mismatch ready mismatch
  · cases encodes.symm.trans answers
    exact execEncode_of_inRange ready length inRange
  · cases faults.symm.trans answers

end OtherAnswers

/-- Settles O28: TRANSMIT takes the answer at the head of the queue, the other two commands take none. -/
theorem onlyTransmitReadsTheAnswer : Obligations.OnlyTransmitReadsTheAnswer := by
  refine ⟨fun s a as ready stored => ?_, fun s t i as k noTransmit answers => ?_⟩
  · have takes : s.nextAnswer = a := State.nextAnswer_of_stored stored
    exact ⟨_, exec_transmit_of_ready ready, congrArg List.tail stored, takes ▸ answerResult_eq_ok,
      takes ▸ answerResult_eq_xmitFail⟩
  · cases i with
    | init n l f => exact execInit_other_answers as k answers
    | encode cs => exact execEncode_other_answers as k answers
    | transmit => exact absurd rfl noTransmit

end Sys2Proof.Machine
end

section
/-! WRITE, the caller's ENCODE and then TRANSMIT on an empty port (R95, R184). -/

namespace Sys2Proof.Machine

/-- On an empty port the step after a command's words are delivered is that command's (R236). -/
theorem State.issue_of_idle {s : State} {i : Instr} (wellFormed : i.wellFormed = true) (idle : s.cmdPort = []) :
    s.issue i = exec i s := by
  have port : decode (s.deliver (encode i)).cmdPort = .instr i [] := by
    simpa [idle] using decodeOfEncodeIsTheCommand i [] wellFormed
  have taken : { s.deliver (encode i) with cmdPort := [] } = s := by rw [← idle]; rfl
  calc
    s.issue i = exec i { s.deliver (encode i) with cmdPort := [] } := stepRunsTheDecodedCommand _ i [] port
    _ = exec i s := by rw [taken]

theorem State.issue_encode_of_idle {s : State} {cs : List Colour} (fits : cs.length < colourCountBound)
    (idle : s.cmdPort = []) : s.issue (.encode cs) = execEncode cs s :=
  State.issue_of_idle (decide_eq_true fits) idle

theorem State.issue_transmit_of_idle {s : State} (idle : s.cmdPort = []) : s.issue .transmit = exec .transmit s :=
  State.issue_of_idle rfl idle

theorem State.issueWrite_of_ok {s t : State} {cs : List Colour} (encodes : s.issue (.encode cs) = .next t)
    (ok : t.result = .ok) : s.issueWrite cs = t.issue .transmit := by
  simp [State.issueWrite, encodes, ok]

theorem State.issueWrite_of_error {s t : State} {cs : List Colour} (encodes : s.issue (.encode cs) = .next t)
    (failed : t.result ≠ .ok) : s.issueWrite cs = .next t := by
  simp [State.issueWrite, encodes, failed]

/-- Settles O50: ENCODE leaves the frame in the buffer and the port empty, and TRANSMIT requests that buffer. -/
theorem writeSendsExactlyTheFrame : Obligations.WriteSendsExactlyTheFrame := by
  intro s cs h ready idle length
  have fits : cs.length < colourCountBound := by
    have counts : s.ledCount.toNat < 2 ^ 16 := s.ledCount.isLt
    unfold colourCountBound
    omega
  have encodes : s.issue (.encode cs) = .next (s.encoded cs) :=
    (State.issue_encode_of_idle fits idle).trans (h.execEncode_eq ready length)
  have bufLength : (s.encoded cs).buf.len = 12 * s.ledCount.toNat + 2 * s.latchBytes.toNat := h.readyLength ready
  have outputs := (s.encoded cs).transmitted_outputs
  rw [h.encoded_bytes ready length, bufLength, State.encoded_outputs, List.append_assoc] at outputs
  refine ⟨(s.encoded cs).transmitted, _, _, ?_, idle, outputs, answerResult_cases _⟩
  calc
    s.issueWrite cs = (s.encoded cs).issue .transmit := State.issueWrite_of_ok encodes rfl
    _ = exec .transmit (s.encoded cs) := State.issue_transmit_of_idle idle
    _ = .next (s.encoded cs).transmitted := exec_transmit_of_ready ready

/-- Settles O51: ENCODE raises its error, and WRITE goes no further. -/
theorem writeStopsAtAFailedEncode : Obligations.WriteStopsAtAFailedEncode := by
  intro s cs r fits idle failure
  have issues : s.issue (.encode cs) = execEncode cs s := State.issue_encode_of_idle fits idle
  rcases failure with ⟨notReady, rfl⟩ | ⟨ready, mismatch, rfl⟩
  · exact State.issueWrite_of_error (issues.trans (exec_of_not_ready (i := .encode cs) notReady nofun)) nofun
  · exact State.issueWrite_of_error (issues.trans (execEncode_of_mismatch ready mismatch)) nofun

end Sys2Proof.Machine
end

section
/-! The results of the commands (R200, R210) and the errors' effects (R201 to R205): which condition decides a result,
and what an error leaves unchanged. -/

namespace Sys2Proof.Machine

section Results

variable {s t : State}

/-- INIT has one error, and only for want of capacity (R136). -/
theorem execInit_result {n : BitVec 16} {l : BitVec 8} {f : BitVec 32} (answers : execInit n l f s = .next t) :
    t.result = if s.cfg.bufCapacity < bufferSize n.toNat l.toNat then .allocFail else .ok := by
  rcases execInit_cases n l f s with ⟨fits, succeeds⟩ | ⟨tooLarge, fails⟩
  · cases succeeds.symm.trans answers
    exact (if_neg (Nat.not_lt_of_le fits)).symm
  · cases fails.symm.trans answers
    exact (if_pos tooLarge).symm

/-- ENCODE checks `READY` first, then the colour count (R139). -/
theorem execEncode_result {cs : List Colour} (answers : execEncode cs s = .next t) :
    t.result = if s.ready = false then .notReady else if cs.length ≠ s.ledCount.toNat then .lenMismatch else .ok := by
  rcases execEncode_cases cs s with
    ⟨notReady, refuses⟩ | ⟨ready, mismatch, refuses⟩ | ⟨ready, length, -, encodes⟩ | ⟨-, -, _, -, -, faults⟩
  · cases refuses.symm.trans answers
    simp [notReady]
  · cases refuses.symm.trans answers
    simp [ready, mismatch]
  · cases encodes.symm.trans answers
    simp [ready, length]
  · cases faults.symm.trans answers

theorem answerResult_eq_ite (a : TxAnswer) : answerResult a = if a = .fail then .xmitFail else .ok := by
  cases a with
  | ok => rfl
  | fail => rfl

/-- TRANSMIT checks `READY` first, then the transport answers (R180). -/
theorem execTransmit_result (answers : execTransmit s = .next t) :
    t.result = if s.ready = false then .notReady else if s.nextAnswer = .fail then .xmitFail else .ok := by
  rcases execTransmit_cases s with ⟨notReady, refuses⟩ | ⟨ready, requests⟩
  · cases refuses.symm.trans answers
    simp [notReady]
  · cases requests.symm.trans answers
    simp [ready, answerResult_eq_ite]

/-- An INIT that fails leaves the block not ready (R136). -/
theorem execInit_not_ready_of_failed {n : BitVec 16} {l : BitVec 8} {f : BitVec 32}
    (answers : execInit n l f s = .next t) (failed : t.result ≠ .ok) : t.ready = false := by
  rcases execInit_cases n l f s with ⟨-, succeeds⟩ | ⟨-, fails⟩
  · cases succeeds.symm.trans answers
    exact absurd rfl failed
  · cases fails.symm.trans answers
    rfl

/-- ALLOC_FAIL is the error of INIT alone, and INIT raises it with `READY = 0` (R136). -/
theorem exec_not_ready_of_allocFail {i : Instr} (answers : exec i s = .next t) (failed : t.result = .allocFail) :
    t.ready = false := by
  cases i with
  | init n l f => exact execInit_not_ready_of_failed answers (by simp [failed])
  | encode cs =>
    have result := failed.symm.trans (execEncode_result answers)
    split_ifs at result
  | transmit =>
    have result := failed.symm.trans (execTransmit_result answers)
    split_ifs at result

/-- A step that ends with an error other than ALLOC_FAIL writes no register but `RESULT` and no byte (R203). -/
theorem StepEffect.precise (effect : StepEffect s t) (error : t.result ≠ .ok) (noAllocFail : t.result ≠ .allocFail) :
    t.ready = s.ready ∧ t.ledCount = s.ledCount ∧ t.latchBytes = s.latchBytes ∧ t.rateHz = s.rateHz ∧
      t.rateWarn = s.rateWarn ∧ t.buf = s.buf ∧ t.cfg = s.cfg := by
  cases effect with
  | held | illegal | notReady | mismatched | requested => exact ⟨rfl, rfl, rfl, rfl, rfl, rfl, rfl⟩
  | configured | encoded => exact absurd rfl error
  | discarded => exact absurd rfl noAllocFail

/-- Only an INIT that fits makes a block ready (R21, R203). -/
theorem StepEffect.init_of_becomes_ready (effect : StepEffect s t) (notReady : s.ready = false)
    (becomesReady : t.ready = true) :
    ∃ n l f rest, decode s.cmdPort = .instr (.init n l f) rest ∧ bufferSize n.toNat l.toNat ≤ s.cfg.bufCapacity := by
  cases effect with
  | held | illegal | notReady | mismatched | encoded | requested =>
    exact absurd (notReady.symm.trans becomesReady) Bool.false_ne_true
  | configured port fits => exact ⟨_, _, _, _, port, fits⟩
  | discarded => exact absurd becomesReady Bool.false_ne_true

end Results

theorem Result.code_le_five (r : Result) : r.code.toNat ≤ 5 := by
  cases r <;> decide

/-- Settles O9: each code is read off its result, and the bound is `Result.code_le_five`. -/
theorem resultCodesAreTheTable : Obligations.ResultCodesAreTheTable :=
  ⟨rfl, rfl, rfl, rfl, rfl, rfl, Result.code_le_five⟩

/-- Settles O16: a block that is not ready refuses every command but INIT, and INIT fails only with `READY = 0`. -/
theorem notReadyCommandsChangeOnlyResult : Obligations.NotReadyCommandsChangeOnlyResult := by
  refine ⟨fun s i notReady other => ?_, rfl, fun _ _ _ _ _ => execInit_not_ready_of_failed⟩
  have noInit : ∀ n l f, i ≠ .init n l f := by
    rcases other with rfl | ⟨cs, rfl⟩
    · exact nofun
    · exact nofun
  rw [exec_of_not_ready notReady noInit, State.raise_eq_complete, State.complete, notReady]

/-- Settles O17: on a ready block the length is the first condition that fails. -/
theorem encodeRefusesAnotherLength : Obligations.EncodeRefusesAnotherLength := by
  intro s cs ready mismatch
  rw [← ready]
  exact execEncode_of_mismatch ready mismatch

/-- Settles O40: the effects of a step, of which INIT's two alone write `READY`, the configuration or `RATE_WARN`, and
ENCODE's writes the buffer only with OK. -/
theorem errorsArePrecise : Obligations.ErrorsArePrecise :=
  ⟨fun _ _ answers => (stepEffect_of_step answers).precise, fun _ _ _ => exec_not_ready_of_allocFail,
    fun _ _ answers => (stepEffect_of_step answers).init_of_becomes_ready⟩

/-- The command that decoded words stand for is what the step runs. -/
theorem exec_of_step {s t : State} {i : Instr} {rest : List Word} (decodes : decode s.cmdPort = .instr i rest)
    (answers : step s = .next t) : exec i (s.takeCommand rest) = .next t :=
  (stepRunsTheDecodedCommand s i rest decodes).symm.trans answers

/-! The result of the complete command on the port, `h` and its operand words, for each opcode (R210). -/

section CommandOnPort

variable {s t : State} {h : Word} {ops rest : List Word} (port : s.cmdPort = h :: (ops ++ rest))
  (complete : 1 + ops.length = commandLength h) (answers : step s = .next t)

include port complete answers

/-- A complete command in an illegal form is refused with BAD_COMMAND and puts out its response alone (R93, R204). -/
theorem refused_of_illegalForm (form : IllegalForm h ops) :
    t.result = .badCommand ∧ ∃ w, t.outputs = s.outputs ++ [.response w] := by
  cases (illegalCommandChangesOnlyResult s h ops rest port complete form).symm.trans answers
  exact ⟨rfl, _, rfl⟩

theorem result_of_unassigned (op : Unassigned h) : t.result = .badCommand :=
  (refused_of_illegalForm port complete answers (.inl op)).1

theorem result_of_init (op : opcodeOf h = 0x01#8) :
    t.result = if s.cfg.bufCapacity < bufferSize (h.extractLsb' 0 16).toNat (h.extractLsb' 16 8).toNat then .allocFail
      else .ok := by
  obtain ⟨f, rfl⟩ : ∃ f, ops = [f] :=
    List.length_eq_one_iff.mp (by rw [commandLength_init op] at complete; omega)
  have runs := exec_of_step ((congrArg decode port).trans (decode_init op (f :: rest))) answers
  exact execInit_result (s := s.takeCommand rest) runs

/-- The decoder finds a reserved colour bit before ENCODE checks anything (R97, R139). -/
theorem result_of_encode (op : opcodeOf h = 0x02#8) :
    t.result = if ∃ w ∈ ops, w.extractLsb' 24 8 ≠ 0#8 then .badCommand
      else if s.ready = false then .notReady
      else if ops.length ≠ s.ledCount.toNat then .lenMismatch
      else .ok := by
  by_cases reserved : ∃ w ∈ ops, w.extractLsb' 24 8 ≠ 0#8
  · rw [if_pos reserved]
    exact (refused_of_illegalForm port complete answers (.inr (.inr ⟨op, reserved⟩))).1
  · rw [if_neg reserved]
    rw [commandLength_encode op] at complete
    cases colours : decodeColours ops with
    | none => exact absurd (decodeColours_eq_none.mp colours) reserved
    | some cs =>
      have decodes := decode_encode_legal op (by omega) colours rest
      have runs := exec_of_step ((congrArg decode port).trans decodes) answers
      have length : ops.length = cs.length := by rw [map_of_decodeColours colours, List.length_map]
      rw [length]
      exact execEncode_result (s := s.takeCommand rest) runs

/-- A TRANSMIT without reserved bits runs (R88). -/
theorem transmit_of_legal (op : opcodeOf h = 0x03#8) (legal : headerField h = 0#24) :
    exec .transmit (s.takeCommand rest) = .next t := by
  obtain rfl := operands_eq_nil complete (commandLength_transmit op)
  exact exec_of_step ((congrArg decode port).trans ((decode_transmit op rest).trans (if_pos legal))) answers

/-- The decoder finds a reserved header bit before TRANSMIT checks anything (R97, R180). -/
theorem result_of_transmit (op : opcodeOf h = 0x03#8) :
    t.result = if headerField h ≠ 0#24 then .badCommand
      else if s.ready = false then .notReady
      else if s.nextAnswer = .fail then .xmitFail
      else .ok := by
  by_cases reserved : headerField h = 0#24
  · rw [if_neg (not_not_intro reserved)]
    exact execTransmit_result (s := s.takeCommand rest) (transmit_of_legal port complete answers op reserved)
  · rw [if_pos reserved]
    exact (refused_of_illegalForm port complete answers (.inr (.inl ⟨op, reserved⟩))).1

/-- A TRANSMIT that one of the first two conditions stops puts out its response and makes no request (R210). -/
theorem response_alone_of_stopped_transmit (op : opcodeOf h = 0x03#8)
    (stopped : headerField h ≠ 0#24 ∨ s.ready = false) : ∃ w, t.outputs = s.outputs ++ [.response w] := by
  by_cases reserved : headerField h = 0#24
  · have notReady : s.ready = false := stopped.resolve_left (not_not_intro reserved)
    have runs := transmit_of_legal port complete answers op reserved
    cases (exec_of_not_ready (i := .transmit) (s := s.takeCommand rest) notReady nofun).symm.trans runs
    exact ⟨_, rfl⟩
  · exact (refused_of_illegalForm port complete answers (.inr (.inl ⟨op, reserved⟩))).2

end CommandOnPort

/-- Settles O10, opcode by opcode. -/
theorem resultFollowsTheErrorPriority : Obligations.ResultFollowsTheErrorPriority :=
  fun _ _ _ _ _ port complete answers =>
    ⟨result_of_init port complete answers, result_of_encode port complete answers,
      result_of_transmit port complete answers, response_alone_of_stopped_transmit port complete answers,
      fun noInit noEncode noTransmit => result_of_unassigned port complete answers ⟨noInit, noEncode, noTransmit⟩⟩

end Sys2Proof.Machine
end
